-- ==== Sys2Proof/Word.lean ====
section
/-! DEFINITION. The words of the engine: bytes of the streams, bit strings, 64-bit lane registers,
and the two fixed-size arrays of words (00_scope.md R7, R13; 10_state.md R29). -/

namespace Sys2Proof

/-- A byte of the input and digest streams (R40). -/
abbrev Byte := BitVec 8

/-- One lane register: 64 physical bits (R7 `LANE_BITS`); an architectural lane is its low `W` bits. -/
abbrev Word := BitVec 64

/-- A bit string, first bit first (00_scope.md section 6.2). -/
abbrev Bits := List Bool

/-- 25 words indexed `i = x + 5*y` (R13): the lanes `A` and the scratch array `B`. -/
abbrev Lanes := Vector Word 25

/-- 5 words indexed by column `x`: the scratch arrays `C` and `D` (R29). -/
abbrev Columns := Vector Word 5

end Sys2Proof
end

