-- ==== Sys2Proof/Syntax.lean ====
section
/-! DEFINITION. The instructions: the 4 port commands and the 11 internal operations of
spec/opcode_table.json, one constructor each; the forms in which they are presented; and the reasons
for which a presented item is not decoded. -/

namespace Sys2Proof

/-- The seven legal lane widths (R5), the third operand of ROTL (R90). -/
inductive LaneWidth where
  | w1 | w2 | w4 | w8 | w16 | w32 | w64
  deriving DecidableEq, Repr

/-- The number of bits of a lane width. -/
def LaneWidth.toNat : LaneWidth → Nat
  | .w1 => 1 | .w2 => 2 | .w4 => 4 | .w8 => 8 | .w16 => 16 | .w32 => 32 | .w64 => 64

/-- One constructor per row of spec/opcode_table.json, with the operands the row's rule names. -/
inductive Instr where
  /-- R76: the absence of a command. -/
  | idle
  /-- R130: `rate`, `capacity`, `outputSize`, in bits. -/
  | init (rate capacity outputSize : BitVec 32)
  /-- R131: the payload. -/
  | absorb (payload : List Byte)
  /-- R136, R74: the payload, the number `t` of tail bits and the tail byte `v`. -/
  | finalize (payload : List Byte) (t : BitVec 3) (v : Byte)
  /-- R90: rotate the `w`-bit word `x` left by `n`. -/
  | rotl (x : Word) (n : BitVec 32) (w : LaneWidth)
  /-- R91: the binary logarithm of `w`. -/
  | log2 (w : BitVec 32)
  /-- R101. -/
  | theta
  /-- R104. -/
  | rhopi
  /-- R105. -/
  | chi
  /-- R107: the round index. -/
  | iota (i : BitVec 32)
  /-- R108: the round index. -/
  | round (i : BitVec 32)
  /-- R109. -/
  | permute
  /-- R120: the bit string and the rate. -/
  | pad (m : Bits) (r : BitVec 32)
  /-- R132: the block. -/
  | absorbBlock (p : Bits)
  /-- R137. -/
  | squeeze
  deriving DecidableEq, Repr

/-- A command as it is presented on the command port: the 98-bit word `cw` and the payload that
follows it (R71). -/
structure CommandItem where
  word    : BitVec 98
  payload : List Byte
  deriving DecidableEq, Repr

/-- An internal operation as the model presents it: the 4-bit tag of R79, which is all the encoding
the spec gives, and the operand lines, which are the model's own (DESIGN CHOICE, log 5). -/
structure UopItem where
  tag   : BitVec 4
  x     : Word
  n     : BitVec 32
  width : LaneWidth
  bits  : Bits
  deriving DecidableEq, Repr

/-- The two forms in which an instruction is presented. -/
inductive Encoded where
  | command (c : CommandItem)
  | uop (u : UopItem)
  deriving DecidableEq, Repr

/-- Why a presented item is not decoded. -/
inductive DecodeError where
  /-- A payload of another length than the command says: `p0` bytes, or none for IDLE and INIT
  (R71, U7). -/
  | payloadLength
  /-- A tag 0xB to 0xF, which names nothing (R79, U9). -/
  | unassignedTag
  deriving DecidableEq, Repr

end Sys2Proof
end

