-- ==== Sys2Proof/WellFormed.lean ====
section
/-! DEFINITION. When an instruction term has operands that its encoding can carry. -/

namespace Sys2Proof

/-- What the encoding admits: a payload of at most `LEN_MAX` bytes, since its length travels in `p0`
(R7, R71, R73). Every other operand has the width of its field or line. -/
def Instr.wellFormed : Instr → Bool
  | .idle => true
  | .init _ _ _ => true
  | .absorb payload => decide (payload.length < 2 ^ 32)
  | .finalize payload _ _ => decide (payload.length < 2 ^ 32)
  | .rotl _ _ _ => true
  | .log2 _ => true
  | .theta => true
  | .rhopi => true
  | .chi => true
  | .iota _ => true
  | .round _ => true
  | .permute => true
  | .pad _ _ => true
  | .absorbBlock _ => true
  | .squeeze => true

/-- Whether the instruction is a command of the port, not an internal operation (R72, R78). -/
def Instr.isCommand : Instr → Bool
  | .idle => true | .init _ _ _ => true | .absorb _ => true | .finalize _ _ _ => true
  | .rotl _ _ _ => false | .log2 _ => false | .theta => false | .rhopi => false | .chi => false
  | .iota _ => false | .round _ => false | .permute => false | .pad _ _ => false
  | .absorbBlock _ => false | .squeeze => false

end Sys2Proof
end

