-- ==== Sys2Proof/Decode.lean ====
section
/-! DEFINITION. The decoder of the command port (30_encoding.md R71 to R74, R80), the decoder of the
internal-operation tags (R79), the encoder, and the layout of a word of spec/opcode_table.json. -/

namespace Sys2Proof

/-- `cw[97:96]` (R71). -/
def opField (cw : BitVec 98) : BitVec 2 := cw.extractLsb' 96 2

/-- `cw[95:64]` (R71). -/
def p0Field (cw : BitVec 98) : BitVec 32 := cw.extractLsb' 64 32

/-- `cw[63:32]` (R71). -/
def p1Field (cw : BitVec 98) : BitVec 32 := cw.extractLsb' 32 32

/-- `cw[31:0]` (R71). -/
def p2Field (cw : BitVec 98) : BitVec 32 := cw.extractLsb' 0 32

/-- `t = p1[2:0]`, that is `cw[34:32]` (R73, R80). -/
def tailCountField (cw : BitVec 98) : BitVec 3 := cw.extractLsb' 32 3

/-- `v = p2[7:0]`, that is `cw[7:0]` (R73, R80). -/
def tailByteField (cw : BitVec 98) : Byte := cw.extractLsb' 0 8

/-- Build a command word from its four fields (R71). -/
def commandWord (op : BitVec 2) (p0 p1 p2 : BitVec 32) : BitVec 98 := op ++ p0 ++ p1 ++ p2

/-- The payload length the command word announces (R71, R73). -/
def announcedLength (cw : BitVec 98) : Nat :=
  if opField cw = 2#2 ∨ opField cw = 3#2 then (p0Field cw).toNat else 0

/-- The command a command word and its payload stand for, the lengths agreeing (R72, R73, R80):
every operation code is assigned, the bits R73 calls ignored are not read. -/
def commandOf (c : CommandItem) : Instr :=
  if opField c.word = 0#2 then .idle
  else if opField c.word = 1#2 then .init (p0Field c.word) (p1Field c.word) (p2Field c.word)
  else if opField c.word = 2#2 then .absorb c.payload
  else .finalize c.payload (tailCountField c.word) (tailByteField c.word)

/-- The decoder of the command port (R80). The only item it rejects is one whose payload is not of
the announced length, which no caller presents (R172, U7; log 3). -/
def decodeCommand (c : CommandItem) : Except DecodeError Instr :=
  if c.payload.length = announcedLength c.word then .ok (commandOf c) else .error .payloadLength

/-- The decoder of the internal operations, by the tags of R79. The line `n` carries the count of ROTL,
the operand of LOG2 less 1, the round index, the rate of PAD less 1 (DESIGN CHOICE, log 5). -/
def decodeUop (u : UopItem) : Except DecodeError Instr :=
  match u.tag.toNat with
  | 0x0 => .ok (.rotl u.x u.n u.width)
  | 0x1 => .ok (.log2 (u.n + 1#32))
  | 0x2 => .ok .theta
  | 0x3 => .ok .rhopi
  | 0x4 => .ok .chi
  | 0x5 => .ok (.iota u.n)
  | 0x6 => .ok (.round u.n)
  | 0x7 => .ok .permute
  | 0x8 => .ok (.pad u.bits (u.n + 1#32))
  | 0x9 => .ok (.absorbBlock u.bits)
  | 0xA => .ok .squeeze
  | _ => .error .unassignedTag

/-- The decoder, total on every presented item. -/
def decode : Encoded → Except DecodeError Instr
  | .command c => decodeCommand c
  | .uop u => decodeUop u

/-- An internal operation with its lines at rest. -/
def plainUop (tag : BitVec 4) : UopItem := ⟨tag, 0, 0, .w1, []⟩

/-- The encoder: the word and payload of a command (R71 to R74, ignored bits 0), the tag and operand
lines of an internal operation (R79). -/
def encode : Instr → Encoded
  | .idle => .command ⟨commandWord 0 0 0 0, []⟩
  | .init rate capacity outputSize => .command ⟨commandWord 1 rate capacity outputSize, []⟩
  | .absorb payload => .command ⟨commandWord 2 (BitVec.ofNat 32 payload.length) 0 0, payload⟩
  | .finalize payload t v =>
    .command ⟨commandWord 3 (BitVec.ofNat 32 payload.length) (t.setWidth 32) (v.setWidth 32), payload⟩
  | .rotl x n w => .uop ⟨0x0, x, n, w, []⟩
  | .log2 w => .uop ⟨0x1, 0, w - 1#32, .w1, []⟩
  | .theta => .uop (plainUop 0x2)
  | .rhopi => .uop (plainUop 0x3)
  | .chi => .uop (plainUop 0x4)
  | .iota i => .uop ⟨0x5, 0, i, .w1, []⟩
  | .round i => .uop ⟨0x6, 0, i, .w1, []⟩
  | .permute => .uop (plainUop 0x7)
  | .pad m r => .uop ⟨0x8, 0, r - 1#32, .w1, m⟩
  | .absorbBlock p => .uop ⟨0x9, 0, 0, .w1, p⟩
  | .squeeze => .uop (plainUop 0xA)

/-- The item a word of spec/opcode_table.json stands for: a row of at most 8 bits is a tag (with
every operand line at rest; a value above 4 bits is no tag), a wider one a command word, followed by as
many zero payload bytes as it announces (log 2, log 5). -/
def tableItem (nbits w : Nat) : Encoded :=
  if nbits ≤ 8 then .uop (plainUop (if w < 16 then BitVec.ofNat 4 w else 0xF))
  else .command ⟨BitVec.ofNat 98 w, List.replicate (announcedLength (BitVec.ofNat 98 w)) 0⟩

/-- The instruction the decoder reads from a table word, if it accepts it. -/
def decodeTableWord (nbits w : Nat) : Option Instr :=
  match decode (tableItem nbits w) with
  | .ok i => some i
  | .error _ => none

end Sys2Proof
end

