-- ==== Sys2Proof/Config.lean ====
section
/-! DEFINITION. What an implementation of the engine fixes (00_scope.md R7), the open parameter of
92_eei_decisions.md D11, and the free values: constants with no body, so that no proof can see one. -/

namespace Sys2Proof.Config

/-- Width of each operand port (R7 `OPND_BITS`, D3). -/
def opndBits : Nat := 32

/-- Largest byte count of one payload (R7 `LEN_MAX`, D21): it travels in `p0`. -/
def lenMax : Nat := 2 ^ 32 - 1

/-- Largest `OUTSZ` (R7 `OUTSZ_MAX`, D23): it travels in `p2` of INIT. -/
def outszMax : Nat := 2 ^ 32 - 1

/-- Sponge instances held by one engine (R7 `N_CTX`, D18). -/
def nCtx : Nat := 1

/-- Physical size of the pending buffer in bytes (R7 `PEND_BYTES`). -/
def pendBytes : Nat := 200

/-- Physical width of a lane register (R7 `LANE_BITS`, D26). -/
def laneBits : Nat := 64

/-- The OPEN parameter `ACCEPT_CLASS_B` of D11 at its default: INIT accepts class B configurations
(log 8). -/
def acceptClassB : Bool := true

/-- FREE VALUE: word number `index` of the `draw`-th overwriting of state whose contents the spec
leaves unspecified (R29, R32, U3, U4; log 6, log 7), and the word that an operation has on operands
for which its rule states none (R90, R107; log 14, log 20). -/
opaque freeWord (draw index : Nat) : BitVec 64

/-- FREE VALUE: a bit string the spec leaves open: the contents of `PEND` after a hardware reset (R32,
R180, U3; log 7), the result of PAD for a rate of 0 (R120; log 11). -/
opaque freeBits (draw : Nat) : List Bool

/-- FREE VALUE: bit `index` of a block that is shorter than `RATE` bits (R132; log 12). -/
opaque freeBit (draw index : Nat) : Bool

end Sys2Proof.Config
end

