-- ==== Sys2Proof/Machine/State.lean ====
section
/-! DEFINITION. The state of one engine (10_state.md R10 to R32), the response it gives (R75), and the
reasons for which the model stops. -/

namespace Sys2Proof.Machine

/-- The life-cycle state `PHASE` (R24). -/
inductive Phase where
  | unconfigured | configured | absorbing | finalized
  deriving DecidableEq, Repr

/-- The status of a command (R28, R160). -/
inductive Status where
  | ok | invalidParameters | invalidState | unsupportedRoundCount
  deriving DecidableEq, Repr

/-- A response (R75): the status, the number of digest bytes, the digest. -/
structure Response where
  status : Status
  dlen   : BitVec 32
  digest : List Byte
  deriving DecidableEq, Repr

/-- The eight configuration registers with the widths of R11. -/
structure ConfigRegs where
  rate  : BitVec 11
  cap   : BitVec 11
  outsz : BitVec 32
  stsz  : BitVec 11
  w     : BitVec 7
  l     : BitVec 3
  nr    : BitVec 5
  wmask : BitVec 64
  deriving DecidableEq, Repr

/-- The scratch arrays `C`, `D`, `B` of the round function (R29). -/
structure Scratch where
  c : Columns
  d : Columns
  b : Lanes
  deriving DecidableEq, Repr

/-- What an internal operation that is a function returns: ROTL a word, LOG2 a number, PAD and
SQUEEZE a bit string. -/
inductive OpResult where
  | word (x : Word)
  | number (n : Nat)
  | bits (b : Bits)
  deriving DecidableEq, Repr

/-- The reset input (R180): not asserted, asserted between two commands, or asserted while the command
that is presented is being performed (DESIGN CHOICE, log 7). -/
inductive ResetInput where
  | low | betweenCommands | duringCommand
  deriving DecidableEq, Repr

/-- One engine. The first five fields are the state of R10; the rest are the model's own: the two
streams at its port (R40), the internal operation to be run by itself and its result (log 5), the
reset input (R180, log 7) and the counter of the free values (log 6). -/
structure State where
  cfg       : ConfigRegs
  lanes     : Lanes
  pend      : Bits
  phase     : Phase
  scratch   : Scratch
  port      : List CommandItem
  responses : List Response
  latch     : Option UopItem
  result    : Option OpResult
  resetPin  : ResetInput
  draws     : Nat
  deriving DecidableEq, Repr

/-- Machine stops. -/
inductive Fault where
  /-- Raised by ABSORB, FINALIZE and SQUEEZE where `RATE = 0` and a loop over blocks would run: R189
  says that it would never end. SAFE: the machine stops; in no state that a run of commands reaches
  (R11 `RATE >= 1`; log 9). -/
  | blockLoopNeverEnds
  deriving DecidableEq, Repr

/-- Reasons for which the model gives no next state. -/
inductive Refusal where
  /-- Raised by an arm of `exec` for an instruction that has no meaning yet. SAFE. -/
  | notModelled (mnemonic : String)
  /-- Raised by `step` on a presented item that is not decoded: a payload of another length than
  announced (U7 says to refuse it), a tag that names nothing (U9). SAFE (log 3, log 5). -/
  | undecodable (e : DecodeError)
  /-- Raised by LOG2 outside its domain, which R91 and U1 say to refuse. SAFE (log 10). -/
  | log2OutsideDomain
  /-- Raised by INIT on a class B configuration where `Config.acceptClassB` is false (R6, D11); it is
  true, so that no run meets this. SAFE (log 8). -/
  | classBRefused
  deriving DecidableEq, Repr

/-- The engine right after a hardware reset: `PHASE = Unconfigured`, no response pending (R32). The
other values are unspecified by R32 and named here (DESIGN CHOICE, log 1). -/
def State.reset : State where
  cfg := ⟨0, 0, 0, 0, 0, 0, 0, 0⟩
  lanes := Vector.replicate 25 0
  pend := []
  phase := .unconfigured
  scratch := ⟨Vector.replicate 5 0, Vector.replicate 5 0, Vector.replicate 25 0⟩
  port := []
  responses := []
  latch := none
  result := none
  resetPin := .low
  draws := 0

end Sys2Proof.Machine
end

