-- ==== Sys2Proof/Machine/Flags.lean ====
section
/-! DEFINITION. There are no flags (10_state.md R27). What takes their place are the numeric codes of
`PHASE` (R24) and of the status (R28), and the one condition on `PHASE` (60_exceptions.md R162). -/

namespace Sys2Proof.Machine

/-- The code of `PHASE` (R24). -/
def Phase.code : Phase → BitVec 2
  | .unconfigured => 0 | .configured => 1 | .absorbing => 2 | .finalized => 3

/-- The code of a status (R28, R160). -/
def Status.code : Status → BitVec 2
  | .ok => 0 | .invalidParameters => 1 | .invalidState => 2 | .unsupportedRoundCount => 3

/-- ABSORB and FINALIZE are accepted in `Configured` and `Absorbing` only (R131, R136, R162). -/
def Phase.accepting : Phase → Bool
  | .unconfigured => false | .configured => true | .absorbing => true | .finalized => false

end Sys2Proof.Machine
end

