-- ==== Sys2Proof/Machine/Bits.lean ====
section
/-! DEFINITION. Bit strings, bytes and words: the orders of 20_memory.md R42 to R44. -/

namespace Sys2Proof.Machine

/-- The number whose binary digits, least significant first, are the bits. -/
def natOfBits : Bits → Nat
  | [] => 0
  | b :: bs => b.toNat + 2 * natOfBits bs

/-- The eight bits of a byte, least significant first (R42). -/
def byteBits (b : Byte) : Bits := (List.range 8).map b.getLsbD

/-- `bits(B)`: the bit string of a byte string (R42). -/
def bits (d : List Byte) : Bits := d.flatMap byteBits

/-- `bytes(X)`: a bit string packed into `ceil(|X| / 8)` bytes, the unused high bits of the last one
zero (R43). -/
def bytes (x : Bits) : List Byte :=
  (List.range ((x.length + 7) / 8)).map fun k => BitVec.ofNat 8 (natOfBits ((x.drop (8 * k)).take 8))

/-- The word whose bit `z` is bit `z` of the string (R45). -/
def wordOfBits (x : Bits) : Word := BitVec.ofNat 64 (natOfBits x)

/-- The low `w` bits of a lane, bit 0 first (R44). -/
def wordBits (w : Nat) (x : Word) : Bits := (List.range w).map x.getLsbD

/-- `2^w - 1` (R92). -/
def mask (w : Nat) : Word := BitVec.ofNat 64 (2 ^ w - 1)

/-- An array of 25 words, word by word. -/
def lanesOf (f : Fin 25 → Word) : Lanes :=
  #v[f 0, f 1, f 2, f 3, f 4, f 5, f 6, f 7, f 8, f 9, f 10, f 11, f 12, f 13, f 14, f 15, f 16,
    f 17, f 18, f 19, f 20, f 21, f 22, f 23, f 24]

/-- An array of 5 words, word by word. -/
def columnsOf (f : Fin 5 → Word) : Columns := #v[f 0, f 1, f 2, f 3, f 4]

/-- `StateBits()` (R44): lane 0 first, within a lane bit 0 first. -/
def stateBits (w : Nat) (a : Lanes) : Bits := a.toList.flatMap (wordBits w)

/-- The XOR-in of a block (R45, by lanes): lane `n` is XORed with the word whose bit `z` is
`P[W*n + z]`; where the block has no such bit the state bit is unchanged. Block bits that no lane bit
stands for (from `25*W` on, or from bit 64 of a lane on), which R45 does not speak of, are dropped
(DESIGN CHOICE, log 22). -/
def xorBlock (w : Nat) (p : Bits) (a : Lanes) : Lanes :=
  lanesOf fun i => a[i] ^^^ wordOfBits ((p.drop (w * i.val)).take w)

/-- The first `n` blocks of `r` bits of a bit string (R131, R136). -/
def chunks (r : Nat) : Nat → Bits → List Bits
  | 0, _ => []
  | n + 1, p => p.take r :: chunks r n (p.drop r)

/-- `ceil(a / b)` for `b >= 1` (00_scope.md section 6.1). -/
def ceilDiv (a b : Nat) : Nat := (a + b - 1) / b

end Sys2Proof.Machine
end

