-- ==== Sys2Proof/Machine/Tables.lean ====
section
/-! DEFINITION. The two constant tables (10_state.md R30) with the generating rules the spec gives for
them, and the pi map (41_permutation.md R102, R103, R106). -/

namespace Sys2Proof.Machine

/-- The lane at column `x`, row `y`: index `x + 5*y` (R13). -/
def laneAt (x y : Fin 5) : Fin 25 := ⟨x.val + 5 * y.val, by omega⟩

/-- The column `i mod 5` of a lane (R13). -/
def colOf (i : Fin 25) : Fin 5 := ⟨i.val % 5, by omega⟩

/-- The row `floor(i / 5)` of a lane (R13). -/
def rowOf (i : Fin 25) : Fin 5 := ⟨i.val / 5, by omega⟩

/-- The table of R106 as it is printed: row `i` holds `RC[i]` and `RC[i + 12]` (from general knowledge by
the spec's own mark, log 13). -/
def rcRows : List (Word × Word) := [
  (0x0000000000000001, 0x000000008000808B),
  (0x0000000000008082, 0x800000000000008B),
  (0x800000000000808A, 0x8000000000008089),
  (0x8000000080008000, 0x8000000000008003),
  (0x000000000000808B, 0x8000000000008002),
  (0x0000000080000001, 0x8000000000000080),
  (0x8000000080008081, 0x000000000000800A),
  (0x8000000000008009, 0x800000008000000A),
  (0x000000000000008A, 0x8000000080008081),
  (0x0000000000000088, 0x8000000000008080),
  (0x0000000080008009, 0x0000000080000001),
  (0x000000008000000A, 0x8000000080008008)]

/-- The round constants `RC[0..23]` (R106): the left column, then the right one. -/
def rcTable : Vector Word 24 := ⟨(rcRows.map Prod.fst ++ rcRows.map Prod.snd).toArray, rfl⟩

/-- The grid of R102: row `y` holds the rotation offsets of the lanes at `x = 0 .. 4` (from general
knowledge by the spec's own mark, log 13). -/
def rhoRows : Vector (Vector Nat 5) 5 := #v[
  #v[0, 1, 62, 28, 27],
  #v[36, 44, 6, 55, 20],
  #v[3, 10, 43, 25, 39],
  #v[41, 45, 15, 21, 8],
  #v[18, 2, 61, 56, 14]]

/-- `RHO[i]`, by source lane (R102). -/
def rho (i : Fin 25) : Nat := rhoRows[rowOf i][colOf i]

/-- The pi map on coordinates: `(x, y)` goes to `(y, 2x + 3y mod 5)` (R103). -/
def piXY (p : Fin 5 × Fin 5) : Fin 5 × Fin 5 := (p.2, 2 * p.1 + 3 * p.2)

/-- `PI[i]`: the lane to which source lane `i` goes (R103). -/
def piDest (i : Fin 25) : Fin 25 :=
  laneAt (piXY (colOf i, rowOf i)).1 (piXY (colOf i, rowOf i)).2

/-- The inverse table of R103, five destinations a row: the source lane that lands in each. -/
def piSourceRows : Vector (Vector (Fin 25) 5) 5 := #v[
  #v[0, 6, 12, 18, 24],
  #v[3, 9, 10, 16, 22],
  #v[1, 7, 13, 19, 20],
  #v[4, 5, 11, 17, 23],
  #v[2, 8, 14, 15, 21]]

/-- The source lane of destination `d` (R103). -/
def piSource (d : Fin 25) : Fin 25 := piSourceRows[rowOf d][colOf d]

/-- One turn of the shift register of R106. -/
def rcShift (r : Nat) : Nat :=
  if (2 * r) &&& 0x100 ≠ 0 then (2 * r) ^^^ 0x171 else 2 * r

/-- `rcbit(t)` of R106. -/
def rcBit (t : Nat) : Bool := (rcShift^[t % 255] 1) % 2 = 1

/-- `RC[i]` as R106 regenerates it: bit `2^j - 1` is `rcbit(j + 7*i)`. -/
def rcGenerated (i : Nat) : Nat :=
  ((List.range 7).map fun j => if rcBit (j + 7 * i) then 2 ^ (2 ^ j - 1) else 0).sum

/-- The walk of R102: after `t` turns, the coordinates reached from `(1, 0)`. -/
def rhoWalk (t : Nat) : Fin 5 × Fin 5 := piXY^[t] (1, 0)

end Sys2Proof.Machine
end

