-- ==== Sys2Proof/Machine/Keccak.lean ====
section
/-! DEFINITION. The word primitives, the round steps, the permutation and the padder as functions of
their operands (40_primitives.md, 41_permutation.md, 42_padding.md). -/

namespace Sys2Proof.Machine

/-- `ROTL(x, n, W)` (R90): the rule's formula. For an `x` that is no word of `W` bits R90 states no value:
ROTL run by itself then returns a free value (log 20), and the round steps apply this formula, which ORs
bits from `W` on into the low `W` bits (DESIGN CHOICE, log 24). -/
def rotl (x : Word) (n w : Nat) : Word :=
  ((x <<< (n % w)) ||| (x >>> (w - n % w))) &&& mask w

/-- `LOG2` as its seven-entry table, with no value elsewhere (R91, U1). -/
def log2 : Nat → Option Nat
  | 1 => some 0 | 2 => some 1 | 4 => some 2 | 8 => some 3
  | 16 => some 4 | 32 => some 5 | 64 => some 6 | _ => none

/-- The 4-step reduction of R91 (masks `0xFF00`, `0x00F0`, `0x000C`, `0x0002`), which realises the table
on its domain; only the table is normative (G3), and no meaning uses this. -/
def log2Steps (w : Nat) : Nat :=
  let s1 := if w &&& 0xFF00 ≠ 0 then (8, w >>> 8) else (0, w)
  let s2 := if s1.2 &&& 0x00F0 ≠ 0 then (s1.1 + 4, s1.2 >>> 4) else s1
  let s3 := if s2.2 &&& 0x000C ≠ 0 then (s2.1 + 2, s2.2 >>> 2) else s2
  if s3.2 &&& 0x0002 ≠ 0 then s3.1 + 1 else s3.1

/-- Column parity (R101): the XOR of the five lanes of column `x`. -/
def parity (a : Lanes) (x : Fin 5) : Word :=
  a[laneAt x 0] ^^^ a[laneAt x 1] ^^^ a[laneAt x 2] ^^^ a[laneAt x 3] ^^^ a[laneAt x 4]

/-- The scratch array `C` of THETA (R101). -/
def thetaC (a : Lanes) : Columns := columnsOf (parity a)

/-- The scratch array `D` of THETA (R101): `C[x+4] ^ ROTL(C[x+1], 1, W)`, indices modulo 5. On parities
wider than `W` it is the formula as it stands (DESIGN CHOICE, log 24). -/
def thetaD (w : Nat) (p : Columns) : Columns :=
  columnsOf fun x => p[x + 4] ^^^ rotl p[x + 1] 1 w

/-- THETA's update of the lanes (R101): lane `x + 5*y` is XORed with `D[x]`. -/
def addColumns (d : Columns) (a : Lanes) : Lanes := lanesOf fun i => a[i] ^^^ d[colOf i]

/-- THETA on lanes (R101). -/
def theta (w : Nat) (a : Lanes) : Lanes := addColumns (thetaD w (thetaC a)) a

/-- RHOPI from the lanes to `B` (R104): `B[PI[i]] = ROTL(A[i], RHO[i], W)`. On lanes wider than `W` it is
the formula of R90 as it stands (DESIGN CHOICE, log 24). -/
def rhopi (w : Nat) (a : Lanes) : Lanes :=
  lanesOf fun d => rotl a[piSource d] (rho (piSource d)) w

/-- CHI from `B` to the lanes (R105), with `~v = v ^ WMASK` (R92). -/
def chi (wmask : Word) (b : Lanes) : Lanes :=
  lanesOf fun i =>
    b[i] ^^^ ((b[laneAt (colOf i + 1) (rowOf i)] ^^^ wmask) &&& b[laneAt (colOf i + 2) (rowOf i)])

/-- IOTA on lanes (R107) with the constant of its round: `A[0] ^ (RC[i] & WMASK)`, lanes 1 to 24
untouched. -/
def iota (wmask constant : Word) (a : Lanes) : Lanes :=
  lanesOf fun k => if k = 0 then a[k] ^^^ (constant &&& wmask) else a[k]

/-- ROUND on lanes (R108) with the constant of its round: the four steps in order. -/
def round (w : Nat) (wmask constant : Word) (a : Lanes) : Lanes :=
  iota wmask constant (chi wmask (rhopi w (theta w a)))

/-- The rounds `0 .. nr - 1` (R109), for `nr <= 24`: round `i` uses `RC[i]`. -/
def keccakF (w : Nat) (wmask : Word) (nr : Nat) (a : Lanes) : Lanes :=
  (rcTable.toList.take nr).foldl (fun a constant => round w wmask constant a) a

/-- The number `j = (-m - 2) mod r` of zero bits of the padding (R120). -/
def padZeros (m r : Nat) : Nat := ((-(m : Int) - 2) % (r : Int)).toNat

/-- `PAD(M, r) = M || 1 || 0^j || 1` (R120). -/
def pad (m : Bits) (r : Nat) : Bits :=
  m ++ [true] ++ List.replicate (padZeros m.length r) false ++ [true]

/-- The first padding byte (R123): the tail bits below the leading `1`. -/
def padFirstByte (t : BitVec 3) (v : Byte) : Byte :=
  (v &&& BitVec.ofNat 8 (2 ^ t.toNat - 1)) ||| (1#8 <<< t.toNat)

/-- PAD in bytes (R122 to R125), for a rate of `r` bits, `r` a multiple of 8: the whole bytes `f`,
then one byte in the tight case, else the first padding byte, zero bytes and `0x80`. -/
def padBytes (f : List Byte) (t : BitVec 3) (v : Byte) (r : Nat) : List Byte :=
  let m := 8 * f.length + t.toNat
  if r - 8 ≤ m % r ∧ m % r ≤ r - 2 then f ++ [padFirstByte t v ||| 0x80]
  else
    f ++ [padFirstByte t v] ++ List.replicate (r / 8 * ceilDiv (m + 2) r - f.length - 2) 0 ++ [0x80]

end Sys2Proof.Machine
end

