-- ==== Sys2Proof/Machine/Ops.lean ====
section
/-! DEFINITION. The shared operations on the state: giving a response, taking an exception, the
unspecified values, running the permutation, absorbing blocks, squeezing, hardware reset, presenting
and fetching an instruction. -/

namespace Sys2Proof.Machine

/-- Give a response (R75): `dlen` is the number of digest bytes. -/
def respond (st : Status) (digest : List Byte) (s : State) : State :=
  { s with responses := s.responses ++ [⟨st, BitVec.ofNat 32 digest.length, digest⟩] }

/-- Take an exception (R164): the command changes no state and answers with the error status, with
`dlen = 0` and no digest. There is nothing to return from (R165). -/
def raise (e : Status) (s : State) : State := respond e [] s

/-- How a command that may raise ends: with its state, or with the exception taken in the state it
started from (R164). -/
def settle (s : State) : Except Status State → Host.Outcome State Fault Refusal
  | .ok s' => .next s'
  | .error e => .next (raise e s)

/-- Scratch contents the spec leaves unspecified (R29, U4): free values, each a word of `W` bits. -/
def freeScratch (draw : Nat) (wmask : Word) : Scratch where
  c := columnsOf fun x => Config.freeWord draw x.val &&& wmask
  d := columnsOf fun x => Config.freeWord draw (5 + x.val) &&& wmask
  b := lanesOf fun i => Config.freeWord draw (10 + i.val) &&& wmask

/-- Put the lanes that whole rounds produced; the scratch arrays are left unspecified (R29, R110). -/
def finishRounds (a : Lanes) (s : State) : State :=
  { s with lanes := a, scratch := freeScratch s.draws s.cfg.wmask, draws := s.draws + 1 }

/-- The constant of round `i` (R107): `RC[i]`; the table has 24 entries, and from 24 on the constant is a
free value (DESIGN CHOICE, log 14). -/
def roundConstant (i : BitVec 32) (draw : Nat) : Word :=
  if h : i.toNat < 24 then rcTable[i.toNat] else Config.freeWord draw 69

/-- Return a value that no rule states, drawn as a free value. -/
def returnFree (v : Nat → OpResult) (s : State) : State :=
  { s with result := some (v s.draws), draws := s.draws + 1 }

/-- PERMUTE (R109): the guard, then `NR` rounds. -/
def permute (s : State) : Except Status State :=
  if 24 < s.cfg.nr.toNat then .error .unsupportedRoundCount
  else .ok (finishRounds (keccakF s.cfg.w.toNat s.cfg.wmask s.cfg.nr.toNat s.lanes) s)

/-- ABSORB_BLOCK (R132): XOR the block in, then PERMUTE. -/
def absorbBlock (p : Bits) (s : State) : Except Status State :=
  permute { s with lanes := xorBlock s.cfg.w.toNat p s.lanes }

/-- The block that ABSORB_BLOCK's loop over `j = 0 .. RATE-1` reads from a bit string (R132): the string
itself if it has `RATE` bits; else, which the rule does not speak of, bits from `RATE` on are not read
and bits that are missing are free values (DESIGN CHOICE, log 12). -/
def blockOf (rate draw : Nat) (p : Bits) : Bits :=
  (List.range rate).map fun j => p.getD j (Config.freeBit draw j)

/-- ABSORB_BLOCK on each block in turn (R131, R136). -/
def absorbBlocks : List Bits → State → Except Status State
  | [], s => .ok s
  | p :: ps, s =>
    match absorbBlock p s with
    | .ok s' => absorbBlocks ps s'
    | .error e => .error e

/-- One extraction (R47): the first `RATE` bits of the state; with `RATE` above `25*W`, which R47 does
not speak of, the whole state, so fewer bits (DESIGN CHOICE, log 22). -/
def extract (s : State) : Bits := (stateBits s.cfg.w.toNat s.lanes).take s.cfg.rate.toNat

/-- The number of extractions `K = ceil(OUTSZ / RATE)` (R137). -/
def extractions (s : State) : Nat := ceilDiv s.cfg.outsz.toNat s.cfg.rate.toNat

/-- The extractions after the first: PERMUTE before each (R137). -/
def squeezeMore : Nat → Bits → State → Except Status (Bits × State)
  | 0, z, s => .ok (z, s)
  | n + 1, z, s =>
    match permute s with
    | .ok s' => squeezeMore n (z ++ extract s') s'
    | .error e => .error e

/-- SQUEEZE (R137): `K` extractions, PERMUTE between them, the first `OUTSZ` bits, or as many as the
extractions give (fewer only with `RATE` above `25*W`; DESIGN CHOICE, log 22). -/
def squeeze (s : State) : Except Status (Bits × State) :=
  match extractions s with
  | 0 => .ok ([], s)
  | k + 1 =>
    match squeezeMore k (extract s) s with
    | .ok (z, s') => .ok (z.take s.cfg.outsz.toNat, s')
    | .error e => .error e

/-- Configuration registers the spec leaves unspecified (R32): free values. -/
def freeConfig (draw : Nat) : ConfigRegs where
  rate := (Config.freeWord draw 60).setWidth 11
  cap := (Config.freeWord draw 61).setWidth 11
  outsz := (Config.freeWord draw 62).setWidth 32
  stsz := (Config.freeWord draw 63).setWidth 11
  w := (Config.freeWord draw 64).setWidth 7
  l := (Config.freeWord draw 65).setWidth 3
  nr := (Config.freeWord draw 66).setWidth 5
  wmask := Config.freeWord draw 67

/-- What a hardware reset leaves (R32, R180): `PHASE` becomes `Unconfigured` and nothing else is
defined. -/
def hardwareReset (s : State) : State :=
  { s with
    phase := .unconfigured
    cfg := freeConfig s.draws
    lanes := lanesOf fun i => Config.freeWord s.draws (35 + i.val)
    pend := Config.freeBits s.draws
    scratch := freeScratch s.draws (mask 64)
    resetPin := .low
    draws := s.draws + 1 }

/-- Abandon the command that is being performed (R180): it is gone and is not answered. It is the one
that `fetch` takes. -/
def abandonCommand (s : State) : State :=
  match s.latch with
  | some _ => { s with latch := none }
  | none => { s with port := s.port.tail }

/-- Present an instruction so that it is fetched next: a command at the head of the port, an internal
operation in the latch. -/
def State.present (s : State) : Encoded → State
  | .command c => { s with port := c :: s.port, latch := none, resetPin := .low }
  | .uop u => { s with latch := some u, resetPin := .low }

/-- Fetch what is presented: the internal operation in the latch, else the oldest command of the port,
which is taken off it; with nothing presented, IDLE (R76). -/
def fetch (s : State) : Except DecodeError (Instr × State) :=
  match s.latch with
  | some u => (decodeUop u).map fun i => (i, { s with latch := none })
  | none =>
    match s.port with
    | [] => .ok (.idle, s)
    | c :: rest => (decodeCommand c).map fun i => (i, { s with port := rest })

end Sys2Proof.Machine
end

