-- ==== Sys2Proof/Machine/Padding.lean ====
section
/-! DEFINITION. The meaning of PAD (42_padding.md R120). -/

namespace Sys2Proof.Machine

/-- PAD (R120): a pure function; its value is returned. For `r = 0`, which the rule leaves out, the value
is a free bit string (DESIGN CHOICE, log 11). -/
def execPad (m : Bits) (r : BitVec 32) (s : State) : Host.Outcome State Fault Refusal :=
  if r = 0#32 then .next (returnFree (fun draw => .bits (Config.freeBits draw)) s)
  else .next { s with result := some (.bits (pad m r.toNat)) }

end Sys2Proof.Machine
end

