-- ==== Sys2Proof/Machine/Permutation.lean ====
section
/-! DEFINITION. The meanings of THETA, RHOPI, CHI, IOTA, ROUND and PERMUTE (41_permutation.md). -/

namespace Sys2Proof.Machine

/-- THETA (R101): `C` from the lanes, `D` from `C`, then every lane; on lanes wider than `W` as log 24
says (DESIGN CHOICE). -/
def execTheta (s : State) : Host.Outcome State Fault Refusal :=
  .next { s with
    lanes := theta s.cfg.w.toNat s.lanes
    scratch := { s.scratch with
      c := thetaC s.lanes
      d := thetaD s.cfg.w.toNat (thetaC s.lanes) } }

/-- RHOPI (R104): `B` from the lanes, which are not changed; on lanes wider than `W` as log 24 says
(DESIGN CHOICE). -/
def execRhopi (s : State) : Host.Outcome State Fault Refusal :=
  .next { s with scratch := { s.scratch with b := rhopi s.cfg.w.toNat s.lanes } }

/-- CHI (R105): the lanes from `B`. Run by itself while `B` holds words wider than the present `W`, it
applies the formula as it stands to whole 64-bit words, so that a lane can get bits from `W` on (DESIGN
CHOICE, log 21). -/
def execChi (s : State) : Host.Outcome State Fault Refusal :=
  .next { s with lanes := chi s.cfg.wmask s.scratch.b }

/-- IOTA (R107): lane 0 only. -/
def execIota (i : BitVec 32) (s : State) : Host.Outcome State Fault Refusal :=
  .next { s with
    lanes := iota s.cfg.wmask (roundConstant i s.draws) s.lanes
    draws := if i.toNat < 24 then s.draws else s.draws + 1 }

/-- ROUND (R108); the scratch arrays are left unspecified (R29). -/
def execRound (i : BitVec 32) (s : State) : Host.Outcome State Fault Refusal :=
  .next (finishRounds (round s.cfg.w.toNat s.cfg.wmask (roundConstant i s.draws) s.lanes) s)

/-- PERMUTE (R109); where its guard fires, `UnsupportedRoundCount` and no state change (U2). -/
def execPermute (s : State) : Host.Outcome State Fault Refusal := settle s (permute s)

end Sys2Proof.Machine
end

