-- ==== Sys2Proof/Machine/Primitives.lean ====
section
/-! DEFINITION. The meanings of IDLE and of the word primitives ROTL and LOG2 (30_encoding.md R76,
40_primitives.md R90, R91). -/

namespace Sys2Proof.Machine

/-- IDLE (R76): no state changes and no response is produced. -/
def execIdle (s : State) : Host.Outcome State Fault Refusal := .next s

/-- ROTL (R90): a pure function; its value is returned. For an `x` that is no word of `W` bits the rule
states no value: a free word of `W` bits (DESIGN CHOICE, log 20). -/
def execRotl (x : Word) (n : BitVec 32) (w : LaneWidth) (s : State) :
    Host.Outcome State Fault Refusal :=
  if x.toNat < 2 ^ w.toNat then .next { s with result := some (.word (rotl x n.toNat w.toNat)) }
  else .next (returnFree (fun draw => .word (Config.freeWord draw 68 &&& mask w.toNat)) s)

/-- LOG2 (R91): its value is returned; outside the domain it is refused (U1). -/
def execLog2 (w : BitVec 32) (s : State) : Host.Outcome State Fault Refusal :=
  match log2 w.toNat with
  | some n => .next { s with result := some (.number n) }
  | none => .refused .log2OutsideDomain

end Sys2Proof.Machine
end

