-- ==== Sys2Proof/Machine/Operands.lean ====
section
/-! DEFINITION. The operand forms that are not taken whole (30_encoding.md R83): the tail bits of
FINALIZE, and the classes of a configuration. -/

namespace Sys2Proof.Machine

/-- The tail bits `v[0] ... v[t-1]` of FINALIZE (R74); `v[7:t]` is ignored. -/
def tailBits (t : BitVec 3) (v : Byte) : Bits := (List.range t.toNat).map v.getLsbD

/-- Class A of R6: `W` in {8, 16, 32, 64} and `RATE mod W = 0`. -/
def classA (w rate : Nat) : Bool := [8, 16, 32, 64].contains w && rate % w == 0

end Sys2Proof.Machine
end

