-- ==== Sys2Proof/Machine/Sponge.lean ====
section
/-! DEFINITION. The meanings of INIT, ABSORB, ABSORB_BLOCK, FINALIZE and SQUEEZE (43_sponge.md). -/

namespace Sys2Proof.Machine

/-- The configuration registers a successful INIT writes (R130), `l` being `LOG2(w)`. -/
def initConfig (rate capacity outputSize : BitVec 32) (l : Nat) : ConfigRegs where
  rate := rate.setWidth 11
  cap := capacity.setWidth 11
  outsz := outputSize
  stsz := BitVec.ofNat 11 (rate.toNat + capacity.toNat)
  w := BitVec.ofNat 7 ((rate.toNat + capacity.toNat) / 25)
  l := BitVec.ofNat 3 l
  nr := BitVec.ofNat 5 (12 + 2 * l)
  wmask := mask ((rate.toNat + capacity.toNat) / 25)

/-- The state a successful INIT leaves (R130), before its response. -/
def establish (cfg : ConfigRegs) (s : State) : State :=
  { s with cfg := cfg, lanes := lanesOf fun _ => 0, pend := [], phase := .configured }

/-- INIT (R130): checks 1 to 4 on the exact sum, then all eight registers, the lanes, `PEND` and
`PHASE`. That `w` is one of the seven widths (check 2) is that LOG2 is defined on it (R91). -/
def execInit (rate capacity outputSize : BitVec 32) (s : State) :
    Host.Outcome State Fault Refusal :=
  if (rate.toNat + capacity.toNat) % 25 ≠ 0 then .next (raise .invalidParameters s)
  else
    match log2 ((rate.toNat + capacity.toNat) / 25) with
    | none => .next (raise .invalidParameters s)
    | some l =>
      if rate = 0#32 then .next (raise .invalidParameters s)
      else if 24 < 12 + 2 * l then .next (raise .unsupportedRoundCount s)
      else if !(Config.acceptClassB || classA ((rate.toNat + capacity.toNat) / 25) rate.toNat) then
        .refused .classBRefused
      else .next (respond .ok [] (establish (initConfig rate capacity outputSize l) s))

/-- ABSORB (R131): append, absorb every complete block, keep the remainder. -/
def execAbsorb (payload : List Byte) (s : State) : Host.Outcome State Fault Refusal :=
  if !s.phase.accepting then .next (raise .invalidState s)
  else if s.cfg.rate = 0#11 then .fault .blockLoopNeverEnds
  else
    let buf := s.pend ++ bits payload
    let r := s.cfg.rate.toNat
    let n := buf.length / r
    settle s ((absorbBlocks (chunks r n buf) s).map fun s' =>
      respond .ok [] { s' with pend := buf.drop (n * r), phase := .absorbing })

/-- FINALIZE (R136): append, pad, absorb every block, squeeze; the digest is the response (R138). -/
def execFinalize (payload : List Byte) (t : BitVec 3) (v : Byte) (s : State) :
    Host.Outcome State Fault Refusal :=
  if !s.phase.accepting then .next (raise .invalidState s)
  else if s.cfg.rate = 0#11 then .fault .blockLoopNeverEnds
  else
    let r := s.cfg.rate.toNat
    let p := pad (s.pend ++ bits payload ++ tailBits t v) r
    settle s ((absorbBlocks (chunks r (p.length / r) p) s).bind fun s1 =>
      (squeeze s1).map fun zs =>
        respond .ok (bytes zs.1) { zs.2 with pend := [], phase := .finalized })

/-- ABSORB_BLOCK by itself (R132). -/
def execAbsorbBlock (p : Bits) (s : State) : Host.Outcome State Fault Refusal :=
  settle s (absorbBlock (blockOf s.cfg.rate.toNat s.draws p) s)

/-- SQUEEZE by itself (R137): the bit string is returned. -/
def execSqueeze (s : State) : Host.Outcome State Fault Refusal :=
  if s.cfg.rate = 0#11 ∧ s.cfg.outsz ≠ 0#32 then .fault .blockLoopNeverEnds
  else settle s ((squeeze s).map fun zs => { zs.2 with result := some (.bits zs.1) })

end Sys2Proof.Machine
end

