-- ==== Sys2Proof/Machine/Dispatch.lean ====
section
/-! DEFINITION. One arm per instruction, each one call of its meaning. -/

namespace Sys2Proof.Machine

def exec (i : Instr) (s : State) : Host.Outcome State Fault Refusal :=
  match i with
  | .idle => Sys2Proof.Machine.execIdle s
  | .init rate capacity outputSize => Sys2Proof.Machine.execInit rate capacity outputSize s
  | .absorb payload => Sys2Proof.Machine.execAbsorb payload s
  | .finalize payload t v => Sys2Proof.Machine.execFinalize payload t v s
  | .rotl x n w => Sys2Proof.Machine.execRotl x n w s
  | .log2 w => Sys2Proof.Machine.execLog2 w s
  | .theta => Sys2Proof.Machine.execTheta s
  | .rhopi => Sys2Proof.Machine.execRhopi s
  | .chi => Sys2Proof.Machine.execChi s
  | .iota k => Sys2Proof.Machine.execIota k s
  | .round k => Sys2Proof.Machine.execRound k s
  | .permute => Sys2Proof.Machine.execPermute s
  | .pad m r => Sys2Proof.Machine.execPad m r s
  | .absorbBlock p => Sys2Proof.Machine.execAbsorbBlock p s
  | .squeeze => Sys2Proof.Machine.execSqueeze s

end Sys2Proof.Machine
end

