-- ==== Sys2Proof/Machine/Step.lean ====
section
/-! DEFINITION. One step: a hardware reset, or the presented instruction run to completion
(20_memory.md R50, R53; 60_exceptions.md R172; 70_reset_and_hazards.md R180). -/

namespace Sys2Proof.Machine

/-- One step of the engine. -/
def step (s : State) : Host.Outcome State Fault Refusal :=
  match s.resetPin with
  | .betweenCommands => .next (hardwareReset s)
  | .duringCommand => .next (hardwareReset (abandonCommand s))
  | .low =>
    match fetch s with
    | .ok (i, s') => exec i s'
    | .error e => .refused (.undecodable e)

/-- The state in which the instruction of a table word is the next one fetched (log 2, log 5). -/
def State.withFetchWord (s : State) (nbits w : Nat) : State := s.present (tableItem nbits w)

end Sys2Proof.Machine
end

