-- ==== Sys2Proof/Machine/Driver.lean ====
section
/-! DEFINITION. Sequences of commands given to one engine, and the driver's pseudo-commands, which the
engine knows nothing of (00_scope.md R9, 30_encoding.md R82, 43_sponge.md R149). -/

namespace Sys2Proof.Machine

/-- Give the engine a list of instructions, one after the other (R53), stopping at the first stop; an
error answer is no stop, and the next instruction is given (DESIGN CHOICE, log 23). -/
def runAll : List Instr → State → Host.Outcome State Fault Refusal
  | [], s => .next s
  | i :: is, s =>
    match exec i s with
    | .next s' => runAll is s'
    | .fault e => .fault e
    | .refused e => .refused e

/-- `HASH r, c, n, <bytes>` (R82). -/
def hashCommands (rate capacity outputSize : BitVec 32) (m : List Byte) : List Instr :=
  [.init rate capacity outputSize, .finalize m 0 0]

/-- `PRESET n` (R82, R9): `INIT 1600 - 2n, 2n, n`, for `n` in {224, 256, 384, 512}. -/
def presetCommand (n : BitVec 32) : Instr := .init (1600#32 - 2#32 * n) (2#32 * n) n

/-- The digest of the last response; an error answer has the empty digest (R164), and with no response
at all it is taken as empty (DESIGN CHOICE, log 23). -/
def lastDigest (s : State) : List Byte :=
  match s.responses.getLast? with
  | some r => r.digest
  | none => []

/-- `ITERATE k + 1, r, c, n, <bytes>` (R82, R149): hash once, then feed each digest, as whole bytes, to
a fresh instance, `k` times. An INIT or FINALIZE that answers an error, on which R149 is silent, does
not end it: the remaining commands are given, and the empty digest of the error is fed on (DESIGN CHOICE,
log 23). -/
def iterateHash (rate capacity outputSize : BitVec 32) :
    Nat → List Byte → State → Host.Outcome State Fault Refusal
  | 0, m, s => runAll (hashCommands rate capacity outputSize m) s
  | k + 1, m, s =>
    match runAll (hashCommands rate capacity outputSize m) s with
    | .next s' => iterateHash rate capacity outputSize k (lastDigest s') s'
    | .fault e => .fault e
    | .refused e => .refused e

end Sys2Proof.Machine
end

