-- ==== Sys2Proof/Safety.lean ====
section
/-! DEFINITION. What claims about the engine are stated in: the invariant between commands
(10_state.md R11, R14, R22, R25), equality but for the unspecified scratch arrays (R29), and the
sponge function (43_sponge.md R142) as a function of the configuration and the message. -/

namespace Sys2Proof.Machine

/-- The configuration registers are those of a successful INIT (R11). -/
structure ConfigRegs.Valid (c : ConfigRegs) : Prop where
  rate_pos : 1 ≤ c.rate.toNat
  sum      : c.rate.toNat + c.cap.toNat = c.stsz.toNat
  width    : c.stsz.toNat = 25 * c.w.toNat
  log_le   : c.l.toNat ≤ 6
  log      : c.w.toNat = 2 ^ c.l.toNat
  rounds   : c.nr.toNat = 12 + 2 * c.l.toNat
  wmask    : c.wmask = mask c.w.toNat

/-- Every word of an array is a word of `w` bits (R14). -/
def Fits (w : Nat) (a : Lanes) : Prop := ∀ i : Fin 25, a[i].toNat < 2 ^ w

/-- What holds between the commands of a caller (R11, R14, R22, R25, R78). -/
structure State.Inv (s : State) : Prop where
  no_latch  : s.latch = none
  cfg       : s.phase ≠ .unconfigured → s.cfg.Valid
  lanes     : s.phase ≠ .unconfigured → Fits s.cfg.w.toNat s.lanes
  pend      : s.phase.accepting = true → s.pend.length < s.cfg.rate.toNat
  fresh     : s.phase = .configured → s.pend = [] ∧ ∀ i : Fin 25, s.lanes[i] = 0
  finalized : s.phase = .finalized → s.pend = []

/-- `t` is `s` but for the scratch arrays, whose contents are unspecified (R29), and the model's
counter of free values. -/
def SameButScratch (s t : State) : Prop := { s with scratch := t.scratch, draws := t.draws } = t

/-- The permutation Keccak-f of a configuration (R109). -/
def ConfigRegs.keccak (c : ConfigRegs) (a : Lanes) : Lanes :=
  keccakF c.w.toNat c.wmask c.nr.toNat a

/-- Absorb blocks one after the other (R132, R142). -/
def ConfigRegs.absorb (c : ConfigRegs) (ps : List Bits) (a : Lanes) : Lanes :=
  ps.foldl (fun a p => c.keccak (xorBlock c.w.toNat p a)) a

/-- The complete blocks of a bit string: block `k` is `P[k*RATE .. (k+1)*RATE)` (R131, R136, R142). -/
def ConfigRegs.blocks (c : ConfigRegs) (p : Bits) : List Bits :=
  (List.range (p.length / c.rate.toNat)).map fun k => (p.drop (k * c.rate.toNat)).take c.rate.toNat

/-- The number of extractions `K = ceil(OUTSZ / RATE)` (R137). -/
def ConfigRegs.extractions (c : ConfigRegs) : Nat := ceilDiv c.outsz.toNat c.rate.toNat

/-- The bits squeezed from the lanes (R137, R142): extraction `k` follows `k` permutations. -/
def ConfigRegs.squeeze (c : ConfigRegs) (a : Lanes) : Bits :=
  ((List.range c.extractions).flatMap fun k =>
    (stateBits c.w.toNat (c.keccak^[k] a)).take c.rate.toNat).take c.outsz.toNat

/-- The lanes after squeezing (R137): one permutation between each two extractions. -/
def ConfigRegs.squeezed (c : ConfigRegs) (a : Lanes) : Lanes := c.keccak^[c.extractions - 1] a

/-- `SPONGE(M)` (R142). -/
def ConfigRegs.sponge (c : ConfigRegs) (m : Bits) : Bits :=
  c.squeeze (c.absorb (c.blocks (pad m c.rate.toNat)) (lanesOf fun _ => 0))

/-- The operands a successful INIT takes (R130, R161): the exact sum is one of the seven state sizes
and the rate is not 0. -/
def InitLegal (rate capacity : BitVec 32) : Prop :=
  rate.toNat + capacity.toNat ∈ [25, 50, 100, 200, 400, 800, 1600] ∧ rate ≠ 0#32

end Sys2Proof.Machine
end

