-- ==== Sys2Proof/Certificates/Slice0/Obligations.lean ====
section
/-! DEFINITION. The statements about the engine, each a `def Obligations.<Name> : Prop`. The scratch
arrays and the counter of free values are left out of every statement's next state where the spec
leaves them unspecified (`SameButScratch`, R29). -/

open Sys2Proof Sys2Proof.Machine

/-! ## Presentation, encoding and decoding -/

/-- A step takes what is presented and runs the decoded instruction to completion: the hardware reset
first, then the internal operation in the latch, then the oldest command of the port, which leaves the
port; an empty port is IDLE (R53, R76). The model's choices in it: the port is a list (log 2), the latch
(log 5), the reset input (log 7), and that an item which does not decode is refused (U7, log 3; U9,
log 5). -/
def Obligations.StepRunsThePresentedInstruction : Prop :=
  (∀ s, s.resetPin = .betweenCommands → step s = .next (hardwareReset s)) ∧
  (∀ s, s.resetPin = .duringCommand → step s = .next (hardwareReset (abandonCommand s))) ∧
  (∀ s, s.resetPin = .low → s.latch = none → s.port = [] → step s = .next s) ∧
  (∀ s c rest i, s.resetPin = .low → s.latch = none → s.port = c :: rest →
    decodeCommand c = .ok i → step s = exec i { s with port := rest }) ∧
  (∀ s c rest e, s.resetPin = .low → s.latch = none → s.port = c :: rest →
    decodeCommand c = .error e → step s = .refused (.undecodable e)) ∧
  (∀ s u i, s.resetPin = .low → s.latch = some u →
    decodeUop u = .ok i → step s = exec i { s with latch := none }) ∧
  (∀ s u e, s.resetPin = .low → s.latch = some u →
    decodeUop u = .error e → step s = .refused (.undecodable e))

/-- Decoding what the encoder writes for a well-formed instruction gives the instruction back, with
every operand at every value. -/
def Obligations.DecodeOfEncodeIsTheInstruction : Prop :=
  ∀ i : Instr, i.wellFormed = true → decode (encode i) = .ok i

/-- Every command and every internal operation that decodes is well formed: its operands are such as its
encoding can carry. -/
def Obligations.DecodedInstructionsAreWellFormed : Prop :=
  (∀ c i, decodeCommand c = .ok i → i.wellFormed = true) ∧
  (∀ u i, decodeUop u = .ok i → i.wellFormed = true)

/-- R80: the decoder of the command port. The word is the number `cw`; `op` is `cw[97:96]`, and each
operand is the slice the rule gives, unsigned and taken as it stands. -/
def Obligations.CommandPortDecodesByOperationCode : Prop :=
  ∀ (cw : BitVec 98) (payload : List Byte),
    (cw.toNat / 2 ^ 96 = 0 → payload = [] → decodeCommand ⟨cw, payload⟩ = .ok .idle) ∧
    (cw.toNat / 2 ^ 96 = 1 → payload = [] →
      decodeCommand ⟨cw, payload⟩ = .ok (.init (BitVec.ofNat 32 (cw.toNat / 2 ^ 64))
        (BitVec.ofNat 32 (cw.toNat / 2 ^ 32)) (BitVec.ofNat 32 cw.toNat))) ∧
    (cw.toNat / 2 ^ 96 = 2 → payload.length = cw.toNat / 2 ^ 64 % 2 ^ 32 →
      decodeCommand ⟨cw, payload⟩ = .ok (.absorb payload)) ∧
    (cw.toNat / 2 ^ 96 = 3 → payload.length = cw.toNat / 2 ^ 64 % 2 ^ 32 →
      decodeCommand ⟨cw, payload⟩ = .ok (.finalize payload (BitVec.ofNat 3 (cw.toNat / 2 ^ 32))
        (BitVec.ofNat 8 cw.toNat)))

/-- R77: there is no illegal command word: with a payload of the announced length every word decodes,
to a port command and never to an internal operation. -/
def Obligations.NoCommandWordIsIllegal : Prop :=
  ∀ c : CommandItem, c.payload.length = announcedLength c.word →
    ∃ i : Instr, decodeCommand c = .ok i ∧ i.isCommand = true

/-- Operands outside their rule's form do not end a run; each operation runs with the one value that no
rule states a free value (the model's choices): ROTL on an `x` that is no word of `W` bits returns some
word of `W` bits (log 20), PAD for a rate of 0 returns some bit string (log 11), and ABSORB_BLOCK on a bit
string of another length is ABSORB_BLOCK on some block of `RATE` bits that agrees with it where it has
bits (log 12). Nothing else changes. -/
def Obligations.OperandsOutsideTheirRuleStillRun : Prop :=
  (∀ (x : Word) (n : BitVec 32) (w : LaneWidth) (s : State), 2 ^ w.toNat ≤ x.toNat → ∃ y : Word,
    exec (.rotl x n w) s =
      .next { s with result := some (.word y), draws := s.draws + 1 } ∧ y.toNat < 2 ^ w.toNat) ∧
  (∀ (m : Bits) (s : State), ∃ b : Bits,
    exec (.pad m 0) s = .next { s with result := some (.bits b), draws := s.draws + 1 }) ∧
  (∀ (p : Bits) (s : State), p.length ≠ s.cfg.rate.toNat → s.cfg.nr.toNat ≤ 24 →
    ∃ (q : Bits) (t : State), q.length = s.cfg.rate.toNat ∧
      (∀ j, j < s.cfg.rate.toNat → j < p.length → q[j]? = p[j]?) ∧
      exec (.absorbBlock p) s = .next t ∧ exec (.absorbBlock q) s = .next t)

/-- A payload of another length than announced is not decoded (U7; the model's choice, log 3). -/
def Obligations.PayloadOfAnotherLengthIsRefused : Prop :=
  ∀ c : CommandItem, c.payload.length ≠ announcedLength c.word →
    decodeCommand c = .error .payloadLength

/-- R73, R74: the ignored operand bits have no effect: a word with any value in them decodes as the word
with zeros there, and FINALIZE depends on the tail byte by its bits `v[0]` to `v[t-1]` only. -/
def Obligations.IgnoredOperandBitsHaveNoEffect : Prop :=
  (∀ (p0 p1 p2 : BitVec 32) (payload : List Byte),
    decodeCommand ⟨commandWord 0 p0 p1 p2, payload⟩ = decodeCommand ⟨commandWord 0 0 0 0, payload⟩ ∧
    decodeCommand ⟨commandWord 2 p0 p1 p2, payload⟩ = decodeCommand ⟨commandWord 2 p0 0 0, payload⟩ ∧
    decodeCommand ⟨commandWord 3 p0 p1 p2, payload⟩ =
      decodeCommand ⟨commandWord 3 p0 (p1 &&& 0x7#32) (p2 &&& 0xFF#32), payload⟩) ∧
  (∀ (payload : List Byte) (t : BitVec 3) (v v' : Byte) (s : State),
    (∀ k, k < t.toNat → v.getLsbD k = v'.getLsbD k) →
      exec (.finalize payload t v) s = exec (.finalize payload t v') s)

/-- R79: the tags 0x0 to 0xA name the eleven operations, whatever the operand lines hold, and 0xB to 0xF
name nothing. Which line carries which operand is the model's choice (log 5). -/
def Obligations.TagsNameTheInternalOperations : Prop :=
  ∀ (x : Word) (n : BitVec 32) (w : LaneWidth) (b : Bits),
    decodeUop ⟨0x0, x, n, w, b⟩ = .ok (.rotl x n w) ∧
    decodeUop ⟨0x1, x, n, w, b⟩ = .ok (.log2 (n + 1#32)) ∧
    decodeUop ⟨0x2, x, n, w, b⟩ = .ok .theta ∧
    decodeUop ⟨0x3, x, n, w, b⟩ = .ok .rhopi ∧
    decodeUop ⟨0x4, x, n, w, b⟩ = .ok .chi ∧
    decodeUop ⟨0x5, x, n, w, b⟩ = .ok (.iota n) ∧
    decodeUop ⟨0x6, x, n, w, b⟩ = .ok (.round n) ∧
    decodeUop ⟨0x7, x, n, w, b⟩ = .ok .permute ∧
    decodeUop ⟨0x8, x, n, w, b⟩ = .ok (.pad b (n + 1#32)) ∧
    decodeUop ⟨0x9, x, n, w, b⟩ = .ok (.absorbBlock b) ∧
    decodeUop ⟨0xA, x, n, w, b⟩ = .ok .squeeze ∧
    (∀ tag : BitVec 4, 0xB ≤ tag.toNat → decodeUop ⟨tag, x, n, w, b⟩ = .error .unassignedTag)

/-- The example words of R80, of 95_test_vectors.md V4 and P7, and tags of R79, written out. -/
def Obligations.SampleWordsDecode : Prop :=
  decodeCommand ⟨0x1_00000440_00000200_00000100#98, []⟩ = .ok (.init 1088 512 256) ∧
  decodeCommand ⟨0x3_00000003_00000000_00000000#98, [0x61, 0x62, 0x63]⟩ =
    .ok (.finalize [0x61, 0x62, 0x63] 0 0) ∧
  decodeCommand ⟨0x3_00000000_00000002_00000002#98, []⟩ = .ok (.finalize [] 2 2) ∧
  decodeCommand ⟨0x2_00000001_00000000_00000000#98, [0x61]⟩ = .ok (.absorb [0x61]) ∧
  decodeCommand ⟨0x0_00000000_00000000_00000000#98, []⟩ = .ok .idle ∧
  decodeTableWord 8 0x2 = some .theta ∧
  decodeTableWord 8 0xA = some .squeeze ∧
  decodeTableWord 8 0xB = none

/-! ## The port commands -/

/-- R76: IDLE changes nothing and gives no response, in every phase. -/
def Obligations.IdleChangesNothing : Prop := ∀ s : State, exec .idle s = .next s

/-- R130, R161: INIT, in every phase. With the exact sum one of the seven state sizes and a rate that
is not 0 it writes the eight configuration registers, zeroes the lanes, empties `PEND`, sets
`Configured` and answers `OK`; else it answers `InvalidParameters` and changes nothing. -/
def Obligations.InitConfiguresOrRefuses : Prop :=
  ∀ (rate capacity outputSize : BitVec 32) (s : State),
    (InitLegal rate capacity → ∃ cfg : ConfigRegs,
      exec (.init rate capacity outputSize) s = .next { s with
        cfg := cfg, lanes := lanesOf fun _ => 0, pend := [], phase := .configured
        responses := s.responses ++ [⟨.ok, 0, []⟩] } ∧
      cfg.rate.toNat = rate.toNat ∧ cfg.cap.toNat = capacity.toNat ∧ cfg.outsz = outputSize ∧
      cfg.stsz.toNat = rate.toNat + capacity.toNat ∧ cfg.w.toNat = cfg.stsz.toNat / 25 ∧
      2 ^ cfg.l.toNat = cfg.w.toNat ∧ cfg.nr.toNat = 12 + 2 * cfg.l.toNat ∧
      cfg.wmask.toNat = 2 ^ cfg.w.toNat - 1) ∧
    (¬ InitLegal rate capacity →
      exec (.init rate capacity outputSize) s =
        .next { s with responses := s.responses ++ [⟨.invalidParameters, 0, []⟩] })

/-- R5: after a successful INIT the derived registers are one of the seven rows, `RATE` is from 1 to
`STSZ`, and `CAP` is the rest; and every such rate of every row is accepted, with any output size. -/
def Obligations.InitDerivesOneOfSevenRows : Prop :=
  (∀ (rate capacity outputSize : BitVec 32) (s t : State), InitLegal rate capacity →
    exec (.init rate capacity outputSize) s = .next t →
    (t.cfg.w.toNat, t.cfg.stsz.toNat, t.cfg.l.toNat, t.cfg.nr.toNat, t.cfg.wmask.toNat) ∈
      [(1, 25, 0, 12, 0x1), (2, 50, 1, 14, 0x3), (4, 100, 2, 16, 0xF), (8, 200, 3, 18, 0xFF),
        (16, 400, 4, 20, 0xFFFF), (32, 800, 5, 22, 0xFFFFFFFF),
        (64, 1600, 6, 24, 0xFFFFFFFFFFFFFFFF)] ∧
    1 ≤ t.cfg.rate.toNat ∧ t.cfg.rate.toNat ≤ t.cfg.stsz.toNat ∧
    t.cfg.cap.toNat = t.cfg.stsz.toNat - t.cfg.rate.toNat) ∧
  (∀ (w r : Nat) (outputSize : BitVec 32) (s : State), w ∈ [1, 2, 4, 8, 16, 32, 64] →
    1 ≤ r → r ≤ 25 * w → ∃ t : State,
      exec (.init (BitVec.ofNat 32 r) (BitVec.ofNat 32 (25 * w - r)) outputSize) s = .next t ∧
      t.phase = .configured ∧ t.cfg.w.toNat = w ∧ t.cfg.rate.toNat = r ∧ t.cfg.outsz = outputSize)

/-- R51: INIT is idempotent: after two identical successful INITs everything but the stream of
responses is as after one. -/
def Obligations.InitTwiceIsInitOnce : Prop :=
  ∀ (rate capacity outputSize : BitVec 32) (s : State), InitLegal rate capacity →
    ∃ t u : State, exec (.init rate capacity outputSize) s = .next t ∧
      exec (.init rate capacity outputSize) t = .next u ∧ u = { t with responses := u.responses }

/-- The blocks that the loops of ABSORB and FINALIZE take (R131 `PendTake(RATE)`, R136
`P[k*RATE .. (k+1)*RATE)`): as many as are complete, each of `RATE` bits, block `k` the bits from
`k*RATE` on; and with the remainder behind them they are the whole string. -/
def Obligations.BlocksAreConsecutiveSlices : Prop :=
  ∀ (c : ConfigRegs) (p : Bits), 1 ≤ c.rate.toNat →
    chunks c.rate.toNat (p.length / c.rate.toNat) p = c.blocks p ∧
    (c.blocks p).length = p.length / c.rate.toNat ∧
    (∀ k, k < p.length / c.rate.toNat →
      (c.blocks p)[k]? = some ((p.drop (k * c.rate.toNat)).take c.rate.toNat)) ∧
    (∀ b ∈ c.blocks p, b.length = c.rate.toNat) ∧
    (c.blocks p).flatten ++ p.drop (p.length / c.rate.toNat * c.rate.toNat) = p

/-- R131: ABSORB in `Configured` or `Absorbing` appends the payload's bits, absorbs every complete block
in order, keeps the remainder, fewer than `RATE` bits, sets `Absorbing` and answers `OK`; in the other
phases it answers `InvalidState` and changes nothing. -/
def Obligations.AbsorbConsumesEveryCompleteBlock : Prop :=
  ∀ (payload : List Byte) (s : State),
    (s.phase = .configured ∨ s.phase = .absorbing → s.cfg.Valid → ∃ t : State,
      exec (.absorb payload) s = .next t ∧
      t.pend.length < s.cfg.rate.toNat ∧
      SameButScratch { s with
        lanes := s.cfg.absorb
          ((List.range ((s.pend ++ bits payload).length / s.cfg.rate.toNat)).map fun k =>
            ((s.pend ++ bits payload).drop (k * s.cfg.rate.toNat)).take s.cfg.rate.toNat) s.lanes
        pend := (s.pend ++ bits payload).drop
          ((s.pend ++ bits payload).length / s.cfg.rate.toNat * s.cfg.rate.toNat)
        phase := .absorbing
        responses := s.responses ++ [⟨.ok, 0, []⟩] } t) ∧
    (s.phase = .unconfigured ∨ s.phase = .finalized →
      exec (.absorb payload) s =
        .next { s with responses := s.responses ++ [⟨.invalidState, 0, []⟩] })

/-- R136, R138: FINALIZE in `Configured` or `Absorbing` appends the payload's bits and the tail bits,
pads, absorbs every block, squeezes, empties `PEND`, sets `Finalized` and answers `OK` with
`ceil(OUTSZ / 8)` digest bytes; in the other phases it answers `InvalidState` and changes nothing. For
configurations of class B the premise is D11 at its default (log 8). -/
def Obligations.FinalizeReturnsTheDigest : Prop :=
  ∀ (payload : List Byte) (t : BitVec 3) (v : Byte) (s : State),
    (s.phase = .configured ∨ s.phase = .absorbing → s.cfg.Valid → ∃ u : State,
      exec (.finalize payload t v) s = .next u ∧
      ∃ (p : Bits) (blocks : List Bits) (absorbed : Lanes) (digest : List Byte),
        p = pad (s.pend ++ bits payload ++ tailBits t v) s.cfg.rate.toNat ∧
        blocks = ((List.range (p.length / s.cfg.rate.toNat)).map fun k =>
          (p.drop (k * s.cfg.rate.toNat)).take s.cfg.rate.toNat) ∧
        absorbed = s.cfg.absorb blocks s.lanes ∧
        digest.length = (s.cfg.outsz.toNat + 7) / 8 ∧
        digest = bytes (s.cfg.squeeze absorbed) ∧
        SameButScratch { s with
          lanes := s.cfg.squeezed absorbed, pend := [], phase := .finalized
          responses := s.responses ++ [⟨.ok, BitVec.ofNat 32 digest.length, digest⟩] } u) ∧
    (s.phase = .unconfigured ∨ s.phase = .finalized →
      exec (.finalize payload t v) s =
        .next { s with responses := s.responses ++ [⟨.invalidState, 0, []⟩] })

/-- R43, R138: the bits of the digest's bytes: bit `u` of byte `k` is bit `8k + u` of the squeezed
string, which has `OUTSZ` bits, and the unused high bits of the last byte are 0. For configurations of
class B the premise is D11 at its default (log 8). -/
def Obligations.DigestBitsFillTheLowEnd : Prop :=
  ∀ (c : ConfigRegs) (a : Lanes), c.Valid →
    (c.squeeze a).length = c.outsz.toNat ∧
    (bytes (c.squeeze a)).length = (c.outsz.toNat + 7) / 8 ∧
    ∀ (k u : Nat) (hk : k < (bytes (c.squeeze a)).length), u < 8 →
      (∀ h : 8 * k + u < (c.squeeze a).length,
        (bytes (c.squeeze a))[k].getLsbD u = (c.squeeze a)[8 * k + u]) ∧
      (c.outsz.toNat ≤ 8 * k + u → (bytes (c.squeeze a))[k].getLsbD u = false)

/-- R134: the phase transitions, for every state between commands: each command of the port completes,
the phase after it is the table's, and where the table says `InvalidState`, that is the answer and
nothing else changes. -/
def Obligations.PhaseTransitionsAreTheTable : Prop :=
  ∀ (s : State), s.Inv →
    (∃ t, exec .idle s = .next t ∧ t.phase = s.phase) ∧
    (∀ rate capacity outputSize, InitLegal rate capacity →
      ∃ t, exec (.init rate capacity outputSize) s = .next t ∧ t.phase = .configured) ∧
    (∀ rate capacity outputSize, ¬ InitLegal rate capacity →
      ∃ t, exec (.init rate capacity outputSize) s = .next t ∧ t.phase = s.phase) ∧
    (∀ payload, ∃ t, exec (.absorb payload) s = .next t ∧
      t.phase = (match s.phase with
        | .unconfigured => .unconfigured | .configured => .absorbing
        | .absorbing => .absorbing | .finalized => .finalized) ∧
      (s.phase = .unconfigured ∨ s.phase = .finalized →
        t = { s with responses := s.responses ++ [⟨.invalidState, 0, []⟩] })) ∧
    (∀ payload k v, ∃ t, exec (.finalize payload k v) s = .next t ∧
      t.phase = (match s.phase with
        | .unconfigured => .unconfigured | .configured => .finalized
        | .absorbing => .finalized | .finalized => .finalized) ∧
      (s.phase = .unconfigured ∨ s.phase = .finalized →
        t = { s with responses := s.responses ++ [⟨.invalidState, 0, []⟩] }))

/-- R189: with `RATE = 0`, which no run reaches, ABSORB and FINALIZE would loop for ever, and so would
SQUEEZE of at least one bit; the model stops with a fault of that name (the model's choice, log 9). -/
def Obligations.ZeroRateStopsTheBlockLoops : Prop :=
  ∀ (s : State), s.cfg.rate.toNat = 0 →
    (s.phase = .configured ∨ s.phase = .absorbing →
      (∀ payload, exec (.absorb payload) s = .fault .blockLoopNeverEnds) ∧
      (∀ payload k v, exec (.finalize payload k v) s = .fault .blockLoopNeverEnds)) ∧
    (s.cfg.outsz.toNat ≠ 0 → exec .squeeze s = .fault .blockLoopNeverEnds) ∧
    (s.cfg.outsz.toNat = 0 → exec .squeeze s = .next { s with result := some (.bits []) })

/-! ## The internal operations -/

/-- R90: ROTL completes in every state, returns a word of `W` bits in which bit `z` of the operand
stands at position `(z + n) mod W`, and changes nothing else. -/
def Obligations.RotlMovesEachBit : Prop :=
  ∀ (x : Word) (n : BitVec 32) (w : LaneWidth) (s : State), x.toNat < 2 ^ w.toNat →
    ∃ y : Word, exec (.rotl x n w) s = .next { s with result := some (.word y) } ∧
      y.toNat < 2 ^ w.toNat ∧
      ∀ z, z < w.toNat → y.getLsbD ((z + n.toNat) % w.toNat) = x.getLsbD z

/-- 40_primitives.md section 4: ROTL is additive for XOR and AND, rotations add, and a rotation by `W`
is the identity. -/
def Obligations.RotlObeysTheWordLaws : Prop :=
  ∀ (a b : Word) (w : LaneWidth) (n k : Nat), a.toNat < 2 ^ w.toNat → b.toNat < 2 ^ w.toNat →
    rotl (a ^^^ b) n w.toNat = rotl a n w.toNat ^^^ rotl b n w.toNat ∧
    rotl (a &&& b) n w.toNat = rotl a n w.toNat &&& rotl b n w.toNat ∧
    rotl (rotl a n w.toNat) k w.toNat = rotl a (n + k) w.toNat ∧
    rotl a w.toNat w.toNat = a ∧
    ((a ^^^ mask w.toNat) ^^^ mask w.toNat) = a ∧ ((a ^^^ mask w.toNat) &&& a) = 0

/-- R91: LOG2 on its seven-entry domain, which the 4-step reduction computes too; outside it the
operation is refused (U1). -/
def Obligations.Log2IsTheSevenEntryTable : Prop :=
  (∀ (k : Nat) (s : State), k ≤ 6 →
    exec (.log2 (BitVec.ofNat 32 (2 ^ k))) s = .next { s with result := some (.number k) } ∧
    log2Steps (2 ^ k) = k) ∧
  (∀ (w : BitVec 32) (s : State), w.toNat ∉ [1, 2, 4, 8, 16, 32, 64] →
    exec (.log2 w) s = .refused .log2OutsideDomain)

/-- R101: THETA completes in every state; `C`, `D` and the lanes are the rule's, nothing else changes. That
the same formulas are applied to lanes wider than `W` is the model's choice (log 24). -/
def Obligations.ThetaXorsColumnCorrections : Prop :=
  ∀ s : State, ∃ (a : Lanes) (p q : Columns),
    exec .theta s = .next { s with lanes := a, scratch := { s.scratch with c := p, d := q } } ∧
    (∀ x : Fin 5, p[x] = s.lanes[laneAt x 0] ^^^ s.lanes[laneAt x 1] ^^^ s.lanes[laneAt x 2] ^^^
      s.lanes[laneAt x 3] ^^^ s.lanes[laneAt x 4]) ∧
    (∀ x : Fin 5, q[x] = p[x + 4] ^^^ rotl p[x + 1] 1 s.cfg.w.toNat) ∧
    (∀ x y : Fin 5, a[laneAt x y] = s.lanes[laneAt x y] ^^^ q[x])

/-- R104: RHOPI completes in every state; the lane at column `x`, row `y` is rotated by the offset of
its own position and stands in `B` at column `y`, row `2x + 3y mod 5`; nothing else changes. That the formula
of R90 is applied to lanes wider than `W` is the model's choice (log 24). -/
def Obligations.RhopiRotatesAndMovesLanes : Prop :=
  ∀ s : State, ∃ b : Lanes,
    exec .rhopi s = .next { s with scratch := { s.scratch with b := b } } ∧
    ∀ x y : Fin 5, b[laneAt y (2 * x + 3 * y)] =
      rotl s.lanes[laneAt x y] (rho (laneAt x y)) s.cfg.w.toNat

/-- R105: CHI completes in every state; each lane is computed from `B` along its row, the complement
within `WMASK`; nothing else changes. That the same formula is applied to words of `B` wider than `W` is
the model's choice (log 21). -/
def Obligations.ChiCombinesAlongRows : Prop :=
  ∀ s : State, ∃ a : Lanes, exec .chi s = .next { s with lanes := a } ∧
    ∀ x y : Fin 5, a[laneAt x y] = s.scratch.b[laneAt x y] ^^^
      ((s.scratch.b[laneAt (x + 1) y] ^^^ s.cfg.wmask) &&& s.scratch.b[laneAt (x + 2) y])

/-- R107: IOTA completes for every round index `0 <= i < NR`; lane 0 is XORed with the masked constant,
lanes 1 to 24 and everything else are untouched. -/
def Obligations.IotaXorsTheRoundConstant : Prop :=
  ∀ (i : Fin 24) (s : State), i.val < s.cfg.nr.toNat → ∃ a : Lanes,
    exec (.iota (BitVec.ofNat 32 i.val)) s = .next { s with lanes := a } ∧
    a[0] = s.lanes[0] ^^^ (rcTable[i] &&& s.cfg.wmask) ∧
    ∀ k : Fin 25, k ≠ 0 → a[k] = s.lanes[k]

/-- R108: ROUND completes for every round index `0 <= i < NR <= 24` and is THETA, RHOPI, CHI and IOTA run
one after the other, but for the scratch arrays, which it leaves unspecified (R29). -/
def Obligations.RoundIsItsFourSteps : Prop :=
  ∀ (i : BitVec 32) (s : State), i.toNat < s.cfg.nr.toNat → s.cfg.nr.toNat ≤ 24 → ∃ t u : State,
    runAll [.theta, .rhopi, .chi, .iota i] s = .next u ∧ exec (.round i) s = .next t ∧
    SameButScratch u t

/-- A round index from `NR` on, which R107 leaves out, does not end a run either (the model's choice,
log 14): IOTA XORs lane 0 with a masked constant, which is `RC[i]` as long as the table has an entry and
a free value from 24 on, and ROUND is still its four steps. -/
def Obligations.RoundIndicesFromNrOnStillRun : Prop :=
  ∀ (i : BitVec 32) (s : State), s.cfg.nr.toNat ≤ i.toNat →
    (∃ (constant : Word) (a : Lanes) (draws : Nat),
      exec (.iota i) s = .next { s with lanes := a, draws := draws } ∧
      a[0] = s.lanes[0] ^^^ (constant &&& s.cfg.wmask) ∧
      (∀ k : Fin 25, k ≠ 0 → a[k] = s.lanes[k]) ∧
      (∀ h : i.toNat < 24, constant = rcTable[i.toNat])) ∧
    (∃ t u : State, runAll [.theta, .rhopi, .chi, .iota i] s = .next u ∧
      exec (.round i) s = .next t ∧ SameButScratch u t)

/-- R109: with `NR` at most 24 PERMUTE completes and is the rounds `0` to `NR - 1` run one after the
other, but for the scratch arrays; with `NR` above 24 it raises `UnsupportedRoundCount` and no lane
changes. -/
def Obligations.PermuteIsItsRounds : Prop :=
  ∀ s : State,
    (s.cfg.nr.toNat ≤ 24 → ∃ t u : State,
      runAll ((List.range s.cfg.nr.toNat).map fun i => .round (BitVec.ofNat 32 i)) s = .next u ∧
      exec .permute s = .next t ∧ SameButScratch u t) ∧
    (24 < s.cfg.nr.toNat → exec .permute s =
      .next { s with responses := s.responses ++ [⟨.unsupportedRoundCount, 0, []⟩] })

/-- R14, R93: each step of the round, and so the permutation, keeps every lane a word of `W` bits. -/
def Obligations.PermutationKeepsLanesInWidth : Prop :=
  ∀ (c : ConfigRegs) (k : Word) (a : Lanes), c.Valid → Fits c.w.toNat a →
    Fits c.w.toNat (theta c.w.toNat a) ∧ Fits c.w.toNat (rhopi c.w.toNat a) ∧
    Fits c.w.toNat (chi c.wmask a) ∧ Fits c.w.toNat (iota c.wmask k a) ∧
    Fits c.w.toNat (c.keccak a)

/-- 40_primitives.md section 4: THETA and RHOPI are linear over XOR, on lanes of `W` bits. -/
def Obligations.ThetaAndRhopiAreLinear : Prop :=
  ∀ (w : Nat) (a b : Lanes), Fits w a → Fits w b →
    theta w (lanesOf fun i => a[i] ^^^ b[i]) = lanesOf (fun i => (theta w a)[i] ^^^ (theta w b)[i]) ∧
    rhopi w (lanesOf fun i => a[i] ^^^ b[i]) = lanesOf (fun i => (rhopi w a)[i] ^^^ (rhopi w b)[i])

/-- R102, R103, R106: the tables are those the spec's generating rules give, and the pi map is a
bijection whose only fixed point is lane 0 and whose inverse is the printed table. -/
def Obligations.ConstantTablesRegenerate : Prop :=
  (∀ i : Fin 24, rcTable[i].toNat = rcGenerated i.val) ∧
  (rho 0 = 0 ∧ ∀ t : Fin 24,
    rho (laneAt (rhoWalk t.val).1 (rhoWalk t.val).2) = (t.val + 1) * (t.val + 2) / 2 % 64) ∧
  (∀ i : Fin 25, piSource (piDest i) = i ∧ piDest (piSource i) = i ∧ (piDest i = i ↔ i = 0))

/-- R120: PAD with a rate of at least 1 completes in every state and returns the message, a 1, the
number `j` of zeros, `0 <= j < r`, that makes the length a multiple of `r`, and a 1; nothing else
changes. -/
def Obligations.PadAppendsOneZerosOne : Prop :=
  ∀ (m : Bits) (r : BitVec 32) (s : State), 1 ≤ r.toNat →
    ∃ j : Nat, j < r.toNat ∧ (m.length + 2 + j) % r.toNat = 0 ∧
      exec (.pad m r) s = .next { s with
        result := some (.bits (m ++ [true] ++ List.replicate j false ++ [true])) }

/-- R121: the length laws of PAD, the places of its ones and zeros, the number of blocks, the two
smallest rates, and injectivity. -/
def Obligations.PadLengthLaws : Prop :=
  ∀ (m : Bits) (r : Nat), 1 ≤ r →
    (pad m r).length = r * ceilDiv (m.length + 2) r ∧
    m.length + 2 ≤ (pad m r).length ∧ (pad m r).length ≤ m.length + r + 1 ∧
    (∀ n, r ∣ n → m.length + 2 ≤ n → (pad m r).length ≤ n) ∧
    (pad m r).take m.length = m ∧
    (pad m r)[m.length]? = some true ∧
    (pad m r)[(pad m r).length - 1]? = some true ∧
    (∀ k, m.length < k → k < (pad m r).length - 1 → (pad m r)[k]? = some false) ∧
    (m.length % r + 2 ≤ r → (pad m r).length / r = m.length / r + 1) ∧
    (m.length % r = r - 1 → (pad m r).length / r = m.length / r + 2) ∧
    (r = 1 → pad m r = m ++ [true, true]) ∧
    (r = 2 → m.length % 2 = 0 → pad m r = m ++ [true, true]) ∧
    (r = 2 → m.length % 2 = 1 → pad m r = m ++ [true, false, true]) ∧
    (∀ m' : Bits, pad m r = pad m' r → m = m')

/-- R123 to R126: for a rate that is a multiple of 8 the padder in bytes, with its tight and multi-byte
cases, gives the bytes of the padder on bits. -/
def Obligations.PadInBytesIsPadInBits : Prop :=
  ∀ (f : List Byte) (t : BitVec 3) (v : Byte) (r : Nat), 1 ≤ r → r % 8 = 0 →
    padBytes f t v r = bytes (pad (bits f ++ tailBits t v) r)

/-- R44, R45: the state as a bit string, and the XOR-in of a block bit by bit: position `j` of the state
is XORed with `P[j]` where the block has such a bit and unchanged elsewhere. -/
def Obligations.BlockBitsMeetStateBits : Prop :=
  ∀ (w : Nat) (p : Bits) (a : Lanes), 1 ≤ w → w ≤ 64 → p.length ≤ 25 * w →
    (stateBits w a).length = 25 * w ∧
    ∀ (i : Fin 25) (z : Nat),
      (z < w → (stateBits w a)[w * i.val + z]? = some (a[i].getLsbD z)) ∧
      (∀ h : z < w ∧ w * i.val + z < p.length,
        (xorBlock w p a)[i].getLsbD z = (a[i].getLsbD z ^^ p[w * i.val + z])) ∧
      (w ≤ z ∨ p.length ≤ w * i.val + z → (xorBlock w p a)[i].getLsbD z = a[i].getLsbD z)

/-- R46: the XOR-in in bytes, for class A: lane `n` below `RATE / W` is XORed with the little-endian word
of its bytes, the others are unchanged. -/
def Obligations.ClassABlocksAreLittleEndianWords : Prop :=
  ∀ (w : Nat) (p : List Byte) (a : Lanes) (i : Fin 25), w ∈ [8, 16, 32, 64] →
    8 * p.length % w = 0 → 8 * p.length ≤ 25 * w →
    (i.val < 8 * p.length / w → (xorBlock w (bits p) a)[i] = a[i] ^^^
      BitVec.ofNat 64 (((List.range (w / 8)).map fun k =>
        (p.getD (i.val * (w / 8) + k) 0).toNat * 2 ^ (8 * k)).sum)) ∧
    (8 * p.length / w ≤ i.val → (xorBlock w (bits p) a)[i] = a[i])

/-- R47: one extraction in bytes, for class A: lane `n` gives `W / 8` bytes, the least significant
first. -/
def Obligations.ClassAExtractionIsLittleEndian : Prop :=
  ∀ (w rate : Nat) (a : Lanes) (i : Fin 25) (k : Nat), w ∈ [8, 16, 32, 64] → rate % w = 0 →
    rate ≤ 25 * w → i.val < rate / w → k < w / 8 →
    (bytes ((stateBits w a).take rate)).length = rate / 8 ∧
    (bytes ((stateBits w a).take rate))[i.val * (w / 8) + k]? = some (a[i].extractLsb' (8 * k) 8)

/-- R132: ABSORB_BLOCK on a block of exactly `RATE` bits in a configured instance completes: the XOR-in
first, then exactly one PERMUTE; nothing else changes but the scratch arrays. -/
def Obligations.AbsorbBlockXorsThenPermutes : Prop :=
  ∀ (p : Bits) (s : State), p.length = s.cfg.rate.toNat → s.cfg.Valid →
    ∃ t u : State,
      exec (.absorbBlock p) s = .next t ∧
      exec .permute { s with lanes := xorBlock s.cfg.w.toNat p s.lanes } = .next u ∧
      SameButScratch u t ∧
      t.lanes = s.cfg.keccak (xorBlock s.cfg.w.toNat p s.lanes)

/-- R137: SQUEEZE in a configured instance completes and returns the first `OUTSZ` bits of
`K = ceil(OUTSZ / RATE)` extractions of `RATE` bits with one PERMUTE between each two, and none before
the first or after the last. -/
def Obligations.SqueezeExtractsAndPermutes : Prop :=
  ∀ s : State, s.cfg.Valid → ∃ (t : State) (z : Bits),
    exec .squeeze s = .next t ∧
    z.length = s.cfg.outsz.toNat ∧
    z = (((List.range ((s.cfg.outsz.toNat + s.cfg.rate.toNat - 1) / s.cfg.rate.toNat)).map fun k =>
      (stateBits s.cfg.w.toNat (s.cfg.keccak^[k] s.lanes)).take s.cfg.rate.toNat).flatten).take
        s.cfg.outsz.toNat ∧
    SameButScratch { s with
      lanes := s.cfg.keccak^[(s.cfg.outsz.toNat + s.cfg.rate.toNat - 1) / s.cfg.rate.toNat - 1] s.lanes
      result := some (.bits z) } t

/-! ## The whole machine -/

/-- The invariant between commands holds at reset. -/
def Obligations.ResetMeetsTheInvariant : Prop := State.reset.Inv

/-- R11, R14, R22, R25: every step keeps the invariant between commands: valid configuration registers,
lanes of `W` bits, fewer than `RATE` pending bits, a fresh instance in `Configured`, an empty `PEND` in
`Finalized`, and no internal operation that a command could have left to run. -/
def Obligations.EveryStepKeepsTheInvariant : Prop :=
  ∀ s t : State, s.Inv → step s = .next t → t.Inv

/-- From a state between commands a step never faults, and is refused only for a payload of another
length than its command announces (U7). -/
def Obligations.StepFromTheInvariantIsSafe : Prop :=
  ∀ s : State, s.Inv →
    (∃ t, step s = .next t) ∨
    ∃ c rest, s.port = c :: rest ∧ c.payload.length ≠ announcedLength c.word ∧
      step s = .refused (.undecodable .payloadLength)

/-- R164: whatever the instruction, an answer with an error status comes with no digest, and nothing
else has changed. -/
def Obligations.ErrorsChangeNothing : Prop :=
  ∀ (i : Instr) (s t : State) (r : Response), exec i s = .next t →
    t.responses = s.responses ++ [r] → r.status ≠ .ok →
    t = { s with responses := s.responses ++ [r] } ∧ r.dlen = 0 ∧ r.digest = []

/-- R12: only a successful INIT changes a configuration register. -/
def Obligations.OnlyInitWritesTheConfiguration : Prop :=
  ∀ (i : Instr) (s t : State), exec i s = .next t → t.cfg ≠ s.cfg →
    ∃ rate capacity outputSize, i = .init rate capacity outputSize ∧ InitLegal rate capacity ∧
      t.phase = .configured

/-- R21, R78, R100: no internal operation changes the configuration, `PEND`, `PHASE` or what waits on the
port, and none gives a response but the guard's. -/
def Obligations.InternalOperationsLeaveControlState : Prop :=
  ∀ (i : Instr) (s t : State), i.isCommand = false → exec i s = .next t →
    t.cfg = s.cfg ∧ t.pend = s.pend ∧ t.phase = s.phase ∧ t.port = s.port ∧ t.latch = s.latch ∧
    t.resetPin = s.resetPin ∧
    (t.responses = s.responses ∨
      (24 < s.cfg.nr.toNat ∧ t.responses = s.responses ++ [⟨.unsupportedRoundCount, 0, []⟩]))

/-- R163: `UnsupportedRoundCount` is PERMUTE's answer where `NR` is above 24, and no step between
commands gives it. -/
def Obligations.UnsupportedRoundCountIsUnreachable : Prop :=
  (∀ s : State, 24 < s.cfg.nr.toNat → ∃ t, exec .permute s = .next t ∧ t.lanes = s.lanes ∧
    t.responses = s.responses ++ [⟨.unsupportedRoundCount, 0, []⟩]) ∧
  (∀ s t : State, s.Inv → step s = .next t →
    t.responses = s.responses ∨
      ∃ r, t.responses = s.responses ++ [r] ∧ r.status ≠ .unsupportedRoundCount)

/-- R140, R184: once `Finalized`, every ABSORB and FINALIZE of any sequence is answered `InvalidState`
and changes nothing, until an INIT. -/
def Obligations.FinalizedInstanceIsOneShot : Prop :=
  ∀ (is : List Instr) (s : State), s.phase = .finalized →
    (∀ i ∈ is, (∃ d, i = .absorb d) ∨ ∃ d t v, i = .finalize d t v) →
    runAll is s = .next { s with
      responses := s.responses ++ List.replicate is.length ⟨.invalidState, 0, []⟩ }

/-- R141: chunking invariance: for a fixed successful INIT the last response is the same however the
message bytes are cut into ABSORBs and the payload of FINALIZE. For configurations of class B the premise
is D11 at its default (log 8). -/
def Obligations.DigestDoesNotDependOnChunking : Prop :=
  ∀ (rate capacity outputSize : BitVec 32) (chunks : List (List Byte)) (last : List Byte)
    (t : BitVec 3) (v : Byte) (s : State), InitLegal rate capacity →
    ∃ u u' : State,
      runAll ([.init rate capacity outputSize] ++ chunks.map .absorb ++ [.finalize last t v]) s =
        .next u ∧
      runAll [.init rate capacity outputSize, .finalize (chunks.flatten ++ last) t v] s = .next u' ∧
      u.responses.getLast? = u'.responses.getLast? ∧ u.responses.getLast? ≠ none ∧
      u.phase = .finalized ∧ u'.phase = .finalized ∧ u.lanes = u'.lanes

/-- R142: the function computed: the digest is the sponge function of the message bits, for the
configuration INIT wrote. For configurations of class B the premise is D11 at its default (log 8). -/
def Obligations.DigestIsTheSpongeFunction : Prop :=
  ∀ (rate capacity outputSize : BitVec 32) (chunks : List (List Byte)) (last : List Byte)
    (t : BitVec 3) (v : Byte) (s : State), InitLegal rate capacity →
    ∃ u : State,
      runAll ([.init rate capacity outputSize] ++ chunks.map .absorb ++ [.finalize last t v]) s =
        .next u ∧
      u.cfg.rate.toNat = rate.toNat ∧ u.cfg.outsz = outputSize ∧
      u.cfg.w.toNat = (rate.toNat + capacity.toNat) / 25 ∧ u.cfg.Valid ∧
      lastDigest u = bytes (u.cfg.sponge (bits (chunks.flatten ++ last) ++ tailBits t v))

/-- R143: what an engine answers from a successful INIT on depends on nothing it held before: from any
two states the same commands give the same responses. For configurations of class B the premise is D11
at its default (log 8). -/
def Obligations.AnswersDependOnlyOnCommandsSinceInit : Prop :=
  ∀ (rate capacity outputSize : BitVec 32) (is : List Instr) (s s' : State),
    InitLegal rate capacity → (∀ i ∈ is, i.isCommand = true) →
    ∃ (u u' : State) (out : List Response),
      runAll (.init rate capacity outputSize :: is) s = .next u ∧
      runAll (.init rate capacity outputSize :: is) s' = .next u' ∧
      u.responses = s.responses ++ out ∧ u'.responses = s'.responses ++ out

/-- R149: the iteration contract: `k + 1` iterations chain the sponge function through its own digest,
as whole bytes with no tail bits, each on a fresh instance. For configurations of class B the premise is
D11 at its default (log 8). What `iterateHash` does after an error answer (log 23) plays no part: under
the premise every command answers `OK`. -/
def Obligations.IterationChainsFreshInstances : Prop :=
  ∀ (rate capacity outputSize : BitVec 32) (k : Nat) (m : List Byte) (s : State),
    InitLegal rate capacity →
    ∃ u : State, iterateHash rate capacity outputSize k m s = .next u ∧ u.cfg.Valid ∧
      u.cfg.rate.toNat = rate.toNat ∧ u.cfg.cap.toNat = capacity.toNat ∧
      u.cfg.outsz = outputSize ∧
      lastDigest u = (fun d => bytes (u.cfg.sponge (bits d)))^[k + 1] m

/-- R190: how often each command runs PERMUTE, read off the model's counter of free values, which each
PERMUTE advances by one (log 6). -/
def Obligations.PermuteCountsPerCommand : Prop :=
  ∀ (payload : List Byte) (k : BitVec 3) (v : Byte) (s : State), s.cfg.Valid →
    (∀ rate capacity outputSize t, exec (.init rate capacity outputSize) s = .next t →
      t.draws = s.draws) ∧
    (s.phase = .configured ∨ s.phase = .absorbing →
      (∃ t, exec (.absorb payload) s = .next t ∧
        t.draws = s.draws + (s.pend.length + 8 * payload.length) / s.cfg.rate.toNat) ∧
      (∃ t, exec (.finalize payload k v) s = .next t ∧
        t.draws = s.draws +
          (ceilDiv (s.pend.length + 8 * payload.length + k.toNat + 2) s.cfg.rate.toNat +
            (ceilDiv s.cfg.outsz.toNat s.cfg.rate.toNat - 1))))

/-- R180, R182: a hardware reset puts `PHASE` to `Unconfigured` and gives no response; asserted during a
command it also abandons that command, which is neither run nor answered later; asserted between
commands it leaves what is presented. Whatever the unspecified rest is, ABSORB and FINALIZE are then
answered `InvalidState` and a legal INIT completes. The form of the reset input is the model's (log 7). -/
def Obligations.HardwareResetUnconfigures : Prop :=
  ∀ s : State, s.resetPin ≠ .low → ∃ t, step s = .next t ∧ t.phase = .unconfigured ∧
    t.responses = s.responses ∧ t.resetPin = .low ∧
    (s.resetPin = .betweenCommands → t.port = s.port ∧ t.latch = s.latch) ∧
    (s.resetPin = .duringCommand → t.latch = none ∧
      (s.latch = none → t.port = s.port.tail) ∧ (s.latch ≠ none → t.port = s.port)) ∧
    (∀ d, exec (.absorb d) t =
      .next { t with responses := t.responses ++ [⟨.invalidState, 0, []⟩] }) ∧
    (∀ d k v, exec (.finalize d k v) t =
      .next { t with responses := t.responses ++ [⟨.invalidState, 0, []⟩] }) ∧
    (∀ rate capacity outputSize, InitLegal rate capacity →
      ∃ u, exec (.init rate capacity outputSize) t = .next u ∧ u.phase = .configured)

/-- R32: right after reset `PHASE` is `Unconfigured` and no response is pending. -/
def Obligations.ResetIsUnconfigured : Prop :=
  State.reset.phase = .unconfigured ∧ State.reset.phase.code = 0 ∧ State.reset.responses = []

/-- R24, R28, R160: the numeric codes of the phases and of the statuses. -/
def Obligations.PhaseAndStatusCodes : Prop :=
  (Phase.unconfigured.code = 0 ∧ Phase.configured.code = 1 ∧ Phase.absorbing.code = 2 ∧
    Phase.finalized.code = 3) ∧
  (Status.ok.code = 0 ∧ Status.invalidParameters.code = 1 ∧ Status.invalidState.code = 2 ∧
    Status.unsupportedRoundCount.code = 3)

/-- R9: the four presets are legal INITs with the rate and capacity of the table, of lane width 64. -/
def Obligations.PresetsExpandToTheTable : Prop :=
  presetCommand 224 = .init 1152 448 224 ∧ presetCommand 256 = .init 1088 512 256 ∧
  presetCommand 384 = .init 832 768 384 ∧ presetCommand 512 = .init 576 1024 512 ∧
  ∀ n ∈ [224, 256, 384, 512], InitLegal (1600#32 - 2#32 * n) (2#32 * n) ∧
    (1600#32 - 2#32 * n).toNat + (2#32 * n).toNat = 25 * 64 ∧
    presetCommand n = .init (1600#32 - 2#32 * n) (2#32 * n) n
end

