-- ==== Sys2Proof/Laws/Bits.lean ====
section
/-! SUPPORT. What the bit-string, byte and word operations give: lengths, and the bit at each position
(20_memory.md R42 to R47; 40_primitives.md R90). -/

namespace Sys2Proof.Machine

@[simp] theorem lanesOf_getElem (f : Fin 25 → Word) (i : Nat) (h : i < 25) :
    (lanesOf f)[i] = f ⟨i, h⟩ := by
  have : ∀ k : Fin 25, (lanesOf f)[k.val] = f k := by
    simp [lanesOf, Fin.forall_fin_succ]
  exact this ⟨i, h⟩

@[simp] theorem columnsOf_getElem (f : Fin 5 → Word) (i : Nat) (h : i < 5) :
    (columnsOf f)[i] = f ⟨i, h⟩ := by
  have : ∀ k : Fin 5, (columnsOf f)[k.val] = f k := by
    simp [columnsOf, Fin.forall_fin_succ]
  exact this ⟨i, h⟩

theorem lanes_ext {a b : Lanes} (h : ∀ i : Fin 25, a[i] = b[i]) : a = b :=
  Vector.ext fun i hi => h ⟨i, hi⟩

@[simp] theorem colOf_laneAt (x y : Fin 5) : colOf (laneAt x y) = x := by
  revert x y; decide
@[simp] theorem rowOf_laneAt (x y : Fin 5) : rowOf (laneAt x y) = y := by
  revert x y; decide
@[simp] theorem laneAt_colOf_rowOf (i : Fin 25) : laneAt (colOf i) (rowOf i) = i := by
  revert i; decide
@[simp] theorem piSource_piDest (i : Fin 25) : piSource (piDest i) = i := by
  revert i; decide
@[simp] theorem piDest_piSource (i : Fin 25) : piDest (piSource i) = i := by
  revert i; decide

theorem natOfBits_lt (x : Bits) : natOfBits x < 2 ^ x.length := by
  induction x with
  | nil => simp [natOfBits]
  | cons b bs ih => cases b <;> simp [natOfBits, pow_succ] <;> omega

theorem natOfBits_testBit (x : Bits) (k : Nat) : (natOfBits x).testBit k = x.getD k false := by
  induction x generalizing k with
  | nil => simp [natOfBits]
  | cons b bs ih =>
    cases k with
    | zero => cases b <;> simp [natOfBits, Nat.testBit_zero]
    | succ k =>
      have : (b.toNat + 2 * natOfBits bs) / 2 = natOfBits bs := by cases b <;> simp; omega
      simp [natOfBits, Nat.testBit_succ, this, ih]

@[simp] theorem wordOfBits_getLsbD (x : Bits) (z : Nat) :
    (wordOfBits x).getLsbD z = (decide (z < 64) && x.getD z false) := by
  simp [wordOfBits, BitVec.getLsbD_ofNat, natOfBits_testBit]

@[simp] theorem wordBits_length (w : Nat) (x : Word) : (wordBits w x).length = w := by simp [wordBits]
@[simp] theorem byteBits_length (b : Byte) : (byteBits b).length = 8 := by simp [byteBits]
@[simp] theorem bits_length (d : List Byte) : (bits d).length = 8 * d.length := by
  induction d with
  | nil => rfl
  | cons b d ih => simp [bits] at *; omega
@[simp] theorem bits_append (d e : List Byte) : bits (d ++ e) = bits d ++ bits e := by simp [bits]
@[simp] theorem bytes_length (x : Bits) : (bytes x).length = (x.length + 7) / 8 := by simp [bytes]
@[simp] theorem tailBits_length (t : BitVec 3) (v : Byte) : (tailBits t v).length = t.toNat := by simp [tailBits]

theorem flatMap_getElem?_const {α : Type} (f : α → Bits) (w : Nat) (hf : ∀ a, (f a).length = w)
    (l : List α) (i z : Nat) (hz : z < w) : (l.flatMap f)[w * i + z]? = l[i]? >>= fun a => (f a)[z]? := by
  induction l generalizing i with
  | nil => simp
  | cons a l ih =>
    cases i with
    | zero => simp [List.getElem?_append, hf, hz]
    | succ i =>
      have h : w * (i + 1) + z = w + (w * i + z) := by ring
      have : ¬ (w + (w * i + z) < w) := by omega
      simp only [List.flatMap_cons, h, List.getElem?_append, hf, this, if_false]
      simpa using ih i

theorem flatMap_length_const {α : Type} (f : α → Bits) (w : Nat) (hf : ∀ a, (f a).length = w)
    (l : List α) : (l.flatMap f).length = w * l.length := by
  induction l with
  | nil => rfl
  | cons a l ih => simp only [List.flatMap_cons, List.length_append, hf, ih, List.length_cons]; ring

@[simp] theorem stateBits_length (w : Nat) (a : Lanes) : (stateBits w a).length = 25 * w := by
  rw [stateBits, flatMap_length_const _ w (by simp), Vector.length_toList, Nat.mul_comm]

theorem stateBits_getElem? (w : Nat) (a : Lanes) (i : Fin 25) (z : Nat) (hz : z < w) :
    (stateBits w a)[w * i.val + z]? = some (a[i].getLsbD z) := by
  rw [stateBits, flatMap_getElem?_const _ w (by simp) _ _ _ hz]
  have h : a.toList[i.val]? = some a[i] := by
    rw [List.getElem?_eq_getElem (by simp)]; simp
  rw [h]
  simp [wordBits, hz]

theorem bits_getElem? (d : List Byte) (k u : Nat) (hu : u < 8) (hk : k < d.length) :
    (bits d)[8 * k + u]? = some (d[k].getLsbD u) := by
  rw [bits, flatMap_getElem?_const _ 8 (by simp) _ _ _ hu, List.getElem?_eq_getElem hk]
  simp [byteBits, hu]

theorem bytes_getElem (x : Bits) (k u : Nat) (hk : k < (bytes x).length) (hu : u < 8) :
    (bytes x)[k].getLsbD u = x.getD (8 * k + u) false := by
  simp only [bytes, List.getElem_map, List.getElem_range, BitVec.getLsbD_ofNat, hu, decide_true, Bool.true_and,
    natOfBits_testBit]
  simp [List.getD_eq_getElem?_getD, hu]

theorem bytes_bits (d : List Byte) : bytes (bits d) = d := by
  apply List.ext_getElem
  · simp; omega
  · intro k h1 h2
    apply BitVec.eq_of_getLsbD_eq
    intro u hu
    rw [bytes_getElem _ _ _ h1 hu, List.getD_eq_getElem?_getD, bits_getElem? d k u hu h2]
    rfl

theorem xorBlock_getLsbD (w : Nat) (p : Bits) (a : Lanes) (i : Fin 25) (z : Nat) :
    (xorBlock w p a)[i].getLsbD z =
      (a[i].getLsbD z ^^ (decide (z < 64) && (decide (z < w) && p.getD (w * i.val + z) false))) := by
  simp only [xorBlock, Fin.getElem_fin, lanesOf_getElem, BitVec.getLsbD_xor, wordOfBits_getLsbD]
  by_cases h : z < w <;> simp [List.getD_eq_getElem?_getD, h]

@[simp] theorem chunks_length (r n : Nat) (p : Bits) : (chunks r n p).length = n := by
  induction n generalizing p with
  | zero => rfl
  | succ n ih => simp [chunks, ih]

theorem chunks_getElem (r n : Nat) (p : Bits) (k : Nat) (hk : k < (chunks r n p).length) :
    (chunks r n p)[k] = (p.drop (k * r)).take r := by
  induction n generalizing p k with
  | zero => simp [chunks] at hk
  | succ n ih =>
    cases k with
    | zero => simp [chunks]
    | succ k =>
      simp only [chunks, List.getElem_cons_succ]
      rw [ih]
      rw [List.drop_drop]; congr 2; ring

/-- Block `k` is the slice from `k * r` on. -/
theorem chunks_eq_map (r n : Nat) (p : Bits) :
    chunks r n p = (List.range n).map fun k => (p.drop (k * r)).take r := by
  apply List.ext_getElem
  · simp
  · intro k h1 h2
    rw [chunks_getElem]; simp

theorem chunks_add (r m n : Nat) (p : Bits) :
    chunks r (m + n) p = chunks r m p ++ chunks r n (p.drop (m * r)) := by
  induction m generalizing p with
  | zero => simp [chunks]
  | succ m ih =>
    rw [show m + 1 + n = (m + n) + 1 by omega, chunks, ih, chunks, List.drop_drop]
    simp; congr 2; ring

theorem chunks_append (r n : Nat) (p q : Bits) (h : n * r ≤ p.length) :
    chunks r n (p ++ q) = chunks r n p := by
  induction n generalizing p with
  | zero => rfl
  | succ n ih =>
    have h1 : r ≤ p.length := by nlinarith
    simp only [chunks, List.take_append_of_le_length h1, List.drop_append_of_le_length h1]
    rw [ih]; simp; rw [Nat.succ_mul] at h; omega

theorem mask_getLsbD (w z : Nat) : (mask w).getLsbD z = (decide (z < 64) && decide (z < w)) := by
  simp [mask, BitVec.getLsbD_ofNat, Nat.testBit_two_pow_sub_one]

theorem rotl_getLsbD (x : Word) (n w z : Nat) :
    (rotl x n w).getLsbD z = (decide (z < 64) && decide (z < w) &&
      ((!decide (z < n % w) && x.getLsbD (z - n % w)) || x.getLsbD (w - n % w + z))) := by
  simp only [rotl, BitVec.getLsbD_and, BitVec.getLsbD_or, BitVec.getLsbD_shiftLeft, mask_getLsbD, BitVec.getLsbD_ushiftRight]
  by_cases h1 : z < 64 <;> by_cases h2 : z < w <;> by_cases h3 : z < n % w <;> simp [h1, h2, h3]

/-- Bit `z` of a `w`-bit word goes to position `(z + n) mod w` (R90). -/
theorem rotl_moves (x : Word) (n w z : Nat) (hw : w ≤ 64) (hx : x.toNat < 2 ^ w) (hz : z < w) :
    (rotl x n w).getLsbD ((z + n) % w) = x.getLsbD z := by
  have hb : ∀ k, w ≤ k → x.getLsbD k = false := fun k hk => by
    rw [BitVec.getLsbD]; exact Nat.testBit_lt_two_pow (lt_of_lt_of_le hx (Nat.pow_le_pow_right (by norm_num) hk))
  have hm : n % w < w := Nat.mod_lt _ (by omega)
  have e : (z + n) % w = if z + n % w < w then z + n % w else z + n % w - w := by
    rw [← Nat.add_mod_mod]
    split
    · rw [Nat.mod_eq_of_lt ‹_›]
    · rw [Nat.mod_eq_sub_mod (by omega), Nat.mod_eq_of_lt (by omega)]
  rw [rotl_getLsbD, e]
  split
  · rename_i h
    have h1 : z + n % w < 64 := by omega
    have h2 : z + n % w - n % w = z := by omega
    simp only [h, h1, h2]
    rw [hb (w - n % w + (z + n % w)) (by omega)]
    simp
  · rename_i h
    have h1 : z + n % w - w < 64 := by omega
    have h2 : z + n % w - w < w := by omega
    have h3 : z + n % w - w < n % w := by omega
    have h4 : w - n % w + (z + n % w - w) = z := by omega
    simp [h1, h2, h3, h4]

/-- A word fits in `w` bits when no bit from `w` on is set. -/
theorem lt_iff_bits (x : Word) (w : Nat) : x.toNat < 2 ^ w ↔ ∀ k, w ≤ k → x.getLsbD k = false := by
  constructor
  · intro h k hk; rw [BitVec.getLsbD]; exact Nat.testBit_lt_two_pow (lt_of_lt_of_le h (Nat.pow_le_pow_right (by norm_num) hk))
  · intro h; exact Nat.lt_pow_two_of_testBit _ h

theorem rotl_lt (x : Word) (n w : Nat) : (rotl x n w).toNat < 2 ^ w := by
  rw [lt_iff_bits]; intro k hk; rw [rotl_getLsbD]; simp [Nat.not_lt.2 hk]

/-- A `w`-bit word is determined by its bits at the rotated positions. -/
theorem eq_of_rot {a b : Word} {w n : Nat} (hw : 1 ≤ w) (ha : a.toNat < 2 ^ w) (hb : b.toNat < 2 ^ w)
    (h : ∀ z, z < w → a.getLsbD ((z + n) % w) = b.getLsbD ((z + n) % w)) : a = b := by
  apply BitVec.eq_of_getLsbD_eq
  intro i hi
  by_cases hiw : i < w
  · have : ((i + (w - n % w)) % w + n) % w = i := by
      have hm : n % w < w := Nat.mod_lt _ hw
      rw [Nat.mod_add_mod, ← Nat.mod_add_div n w]
      have : i + (w - n % w) + (n % w + w * (n / w)) = i + w * (1 + n / w) := by rw [Nat.mul_add]; omega
      rw [Nat.mod_add_div] at *
      rw [show i + (w - n % w) + n = i + w * (1 + n / w) by have := Nat.mod_add_div n w; rw [Nat.mul_add]; omega, Nat.add_mul_mod_self_left, Nat.mod_eq_of_lt hiw]
    have h2 := h ((i + (w - n % w)) % w) (Nat.mod_lt _ hw)
    rwa [this] at h2
  · rw [(lt_iff_bits _ _).1 ha i (by omega), (lt_iff_bits _ _).1 hb i (by omega)]

theorem xor_lt {a b : Word} {w} (ha : a.toNat < 2 ^ w) (hb : b.toNat < 2 ^ w) : (a ^^^ b).toNat < 2 ^ w := by
  rw [lt_iff_bits] at *; intro k hk; simp [ha k hk, hb k hk]

theorem and_lt {a b : Word} {w} (hb : b.toNat < 2 ^ w) : (a &&& b).toNat < 2 ^ w := by
  rw [lt_iff_bits] at *; intro k hk; simp [hb k hk]

theorem mask_lt {w} : (mask w).toNat < 2 ^ w := by
  rw [lt_iff_bits] at *; intro k hk; simp [mask_getLsbD, Nat.not_lt.2 hk]

theorem mask_toNat {w : Nat} (h : w ≤ 64) : (mask w).toNat = 2 ^ w - 1 := by
  have : 2 ^ w ≤ 2 ^ 64 := Nat.pow_le_pow_right (by norm_num) h
  have : 0 < 2 ^ w := Nat.two_pow_pos w
  rw [mask, BitVec.toNat_ofNat, Nat.mod_eq_of_lt (by omega)]

theorem log2_some {n l : Nat} (h : log2 n = some l) : n = 2 ^ l ∧ l ≤ 6 := by
  unfold log2 at h
  split at h <;> simp_all <;> subst h <;> simp

theorem rotl_bits {x : Word} {w : Nat} (hx : x.toNat < 2 ^ w) (n z : Nat) :
    (rotl x n w).getLsbD z = (decide (z < 64) && decide (z < w) &&
      (if z < n % w then x.getLsbD (w - n % w + z) else x.getLsbD (z - n % w))) := by
  rw [rotl_getLsbD]
  rcases Nat.eq_zero_or_pos w with rfl | hw
  · simp
  have hm : n % w < w := Nat.mod_lt _ hw
  split
  · rename_i h; simp [h]
  · rename_i h; rw [(lt_iff_bits _ _).1 hx (w - n % w + z) (by omega)]; simp [h]

theorem pi_laneAt (x y : Fin 5) : piSource (laneAt y (2 * x + 3 * y)) = laneAt x y := by revert x y; decide

theorem getD_bits (p : List Byte) (k u : Nat) (hu : u < 8) : (bits p).getD (8 * k + u) false = (p.getD k 0).getLsbD u := by
  rw [List.getD_eq_getElem?_getD, List.getD_eq_getElem?_getD, bits, flatMap_getElem?_const _ 8 (by simp) _ _ _ hu]
  rcases p[k]? with _ | b
  · simp
  · simp [byteBits, hu]

theorem natOfBits_append (x y : Bits) : natOfBits (x ++ y) = natOfBits x + 2 ^ x.length * natOfBits y := by
  induction x with
  | nil => simp [natOfBits]
  | cons b x ih => simp [natOfBits, ih, pow_succ]; ring

/-- A little-endian sum of `n` bytes is below `2^(8n)`. -/
theorem sum_lt (f : Nat → Nat) (hf : ∀ k, f k < 256) (n : Nat) :
    ((List.range n).map fun k => f k * 2 ^ (8 * k)).sum < 2 ^ (8 * n) := by
  induction n with
  | zero => simp
  | succ n ih =>
    rw [List.range_succ]; simp only [List.map_append, List.sum_append, List.map_cons, List.map_nil, List.sum_cons, List.sum_nil]
    have := hf n
    have e : 2 ^ (8 * (n + 1)) = 256 * 2 ^ (8 * n) := by rw [Nat.mul_add, pow_add]; ring
    rw [e]
    have : f n * 2 ^ (8 * n) ≤ 255 * 2 ^ (8 * n) := Nat.mul_le_mul_right _ (by omega)
    omega

/-- The bits of a little-endian sum of bytes. -/
theorem sum_testBit (f : Nat → Nat) (hf : ∀ k, f k < 256) (n z : Nat) (hz : z < 8 * n) :
    (((List.range n).map fun k => f k * 2 ^ (8 * k)).sum).testBit z = (f (z / 8)).testBit (z % 8) := by
  induction n with
  | zero => omega
  | succ n ih =>
    rw [List.range_succ]; simp only [List.map_append, List.sum_append, List.map_cons, List.map_nil, List.sum_cons, List.sum_nil]
    rw [Nat.add_zero, Nat.add_comm, Nat.mul_comm (f n), Nat.testBit_two_pow_mul_add _ (sum_lt f hf n)]
    split
    · exact ih ‹_›
    · have : z / 8 = n := by omega
      rw [this]; congr 1; omega

/-- The number of padding zeros is below the rate and completes a block (R120). -/
theorem padZeros_lt (m r : Nat) (hr : 1 ≤ r) : padZeros m r < r ∧ (m + 2 + padZeros m r) % r = 0 := by
  unfold padZeros
  have h1 := Int.emod_nonneg (-(m:Int) - 2) (by omega : (r:Int) ≠ 0)
  have h2 := Int.emod_lt_of_pos (-(m:Int) - 2) (by omega : (0:Int) < r)
  have h3 := Int.emod_add_mul_ediv (-(m:Int) - 2) r
  constructor
  · omega
  · have : ((m + 2 + ((-(m:Int) - 2) % (r:Int)).toNat : Nat) : Int) = r * (- ((-(m:Int) - 2) / r)) := by
      push_cast; rw [Int.toNat_of_nonneg h1]; linarith
    have : (r : Int) ∣ ((m + 2 + ((-(m:Int) - 2) % (r:Int)).toNat : Nat) : Int) := ⟨_, this⟩
    exact Nat.mod_eq_zero_of_dvd (by exact_mod_cast this)

theorem pad_length (m : Bits) (r : Nat) : (pad m r).length = m.length + 2 + padZeros m.length r := by simp [pad]; omega

/-- Padding depends on the whole blocks before it by their length only. -/
theorem pad_append (m x : Bits) (r k : Nat) (hk : m.length = r * k + x.length) : pad m r = m ++ (pad x r).drop x.length := by
  have : padZeros m.length r = padZeros x.length r := by
    unfold padZeros; rw [hk]; push_cast
    congr 1
    rw [show (-((r:Int) * k + x.length) - 2) = (-(x.length:Int) - 2) + r * (-k) by ring, Int.add_mul_emod_self_left]
  unfold pad
  rw [this]; simp

theorem pad_self (x : Bits) (r : Nat) : x ++ (pad x r).drop x.length = pad x r := by simp [pad]

end Sys2Proof.Machine
end

