-- ==== Sys2Proof/Laws/Decode.lean ====
section
/-! SUPPORT. The fields of a command word that is built from its fields (30_encoding.md R71, R73). -/

namespace Sys2Proof

section
variable (op : BitVec 2) (p0 p1 p2 : BitVec 32)

theorem commandWord_toNat :
    (commandWord op p0 p1 p2).toNat = op.toNat * 2 ^ 96 + p0.toNat * 2 ^ 64 + p1.toNat * 2 ^ 32 + p2.toNat := by
  change (op ++ p0 ++ p1 ++ p2 : BitVec (2 + 32 + 32 + 32)).toNat = _
  have h0 := p0.isLt; have h1 := p1.isLt; have h2 := p2.isLt
  rw [BitVec.toNat_append, BitVec.toNat_append, BitVec.toNat_append,
    ← Nat.shiftLeft_add_eq_or_of_lt h0, ← Nat.shiftLeft_add_eq_or_of_lt h1, ← Nat.shiftLeft_add_eq_or_of_lt h2]
  simp only [Nat.shiftLeft_eq]; ring

theorem opField_commandWord : opField (commandWord op p0 p1 p2) = op := by
  apply BitVec.eq_of_toNat_eq
  have := op.isLt; have := p0.isLt; have := p1.isLt; have := p2.isLt
  simp only [opField, BitVec.extractLsb'_toNat, commandWord_toNat, Nat.shiftRight_eq_div_pow]; omega

theorem p0Field_commandWord : p0Field (commandWord op p0 p1 p2) = p0 := by
  apply BitVec.eq_of_toNat_eq
  have := op.isLt; have := p0.isLt; have := p1.isLt; have := p2.isLt
  simp only [p0Field, BitVec.extractLsb'_toNat, commandWord_toNat, Nat.shiftRight_eq_div_pow]; omega

theorem p1Field_commandWord : p1Field (commandWord op p0 p1 p2) = p1 := by
  apply BitVec.eq_of_toNat_eq
  have := op.isLt; have := p0.isLt; have := p1.isLt; have := p2.isLt
  simp only [p1Field, BitVec.extractLsb'_toNat, commandWord_toNat, Nat.shiftRight_eq_div_pow]; omega

theorem p2Field_commandWord : p2Field (commandWord op p0 p1 p2) = p2 := by
  apply BitVec.eq_of_toNat_eq
  have := op.isLt; have := p0.isLt; have := p1.isLt; have := p2.isLt
  simp only [p2Field, BitVec.extractLsb'_toNat, commandWord_toNat, Nat.shiftRight_eq_div_pow]; omega

theorem tailCountField_commandWord : tailCountField (commandWord op p0 p1 p2) = p1.setWidth 3 := by
  apply BitVec.eq_of_toNat_eq
  have := op.isLt; have := p0.isLt; have := p1.isLt; have := p2.isLt
  simp only [tailCountField, BitVec.extractLsb'_toNat, commandWord_toNat, Nat.shiftRight_eq_div_pow, BitVec.toNat_setWidth]; omega

theorem tailByteField_commandWord : tailByteField (commandWord op p0 p1 p2) = p2.setWidth 8 := by
  apply BitVec.eq_of_toNat_eq
  have := op.isLt; have := p0.isLt; have := p1.isLt; have := p2.isLt
  simp only [tailByteField, BitVec.extractLsb'_toNat, commandWord_toNat, Nat.shiftRight_eq_div_pow, BitVec.toNat_setWidth]; omega

end

theorem commandOf_isCommand (c) : (commandOf c).isCommand = true := by
  simp only [commandOf]; split; rfl; split; rfl; split <;> rfl

theorem LaneWidth.bounds (w : LaneWidth) : 1 ≤ w.toNat ∧ w.toNat ≤ 64 := by
  cases w <;> simp [LaneWidth.toNat]

end Sys2Proof
end

