-- ==== Sys2Proof/Laws/State.lean ====
section
/-! SUPPORT. One lemma per field per update of the state, so that no later proof unfolds a record
update; and the values of the state after reset. -/

namespace Sys2Proof.Machine

@[simp] theorem respond_cfg (st : Status) (d : List Byte) (s : State) :
    (respond st d s).cfg = s.cfg := rfl
@[simp] theorem respond_lanes (st : Status) (d : List Byte) (s : State) :
    (respond st d s).lanes = s.lanes := rfl
@[simp] theorem respond_pend (st : Status) (d : List Byte) (s : State) :
    (respond st d s).pend = s.pend := rfl
@[simp] theorem respond_phase (st : Status) (d : List Byte) (s : State) :
    (respond st d s).phase = s.phase := rfl
@[simp] theorem respond_scratch (st : Status) (d : List Byte) (s : State) :
    (respond st d s).scratch = s.scratch := rfl
@[simp] theorem respond_port (st : Status) (d : List Byte) (s : State) :
    (respond st d s).port = s.port := rfl
@[simp] theorem respond_responses (st : Status) (d : List Byte) (s : State) :
    (respond st d s).responses = s.responses ++ [⟨st, BitVec.ofNat 32 d.length, d⟩] := rfl
@[simp] theorem respond_latch (st : Status) (d : List Byte) (s : State) :
    (respond st d s).latch = s.latch := rfl
@[simp] theorem respond_result (st : Status) (d : List Byte) (s : State) :
    (respond st d s).result = s.result := rfl
@[simp] theorem respond_resetPin (st : Status) (d : List Byte) (s : State) :
    (respond st d s).resetPin = s.resetPin := rfl
@[simp] theorem respond_draws (st : Status) (d : List Byte) (s : State) :
    (respond st d s).draws = s.draws := rfl

@[simp] theorem raise_cfg (e : Status) (s : State) : (raise e s).cfg = s.cfg := rfl
@[simp] theorem raise_lanes (e : Status) (s : State) : (raise e s).lanes = s.lanes := rfl
@[simp] theorem raise_pend (e : Status) (s : State) : (raise e s).pend = s.pend := rfl
@[simp] theorem raise_phase (e : Status) (s : State) : (raise e s).phase = s.phase := rfl
@[simp] theorem raise_scratch (e : Status) (s : State) : (raise e s).scratch = s.scratch := rfl
@[simp] theorem raise_port (e : Status) (s : State) : (raise e s).port = s.port := rfl
@[simp] theorem raise_responses (e : Status) (s : State) :
    (raise e s).responses = s.responses ++ [⟨e, 0, []⟩] := rfl
@[simp] theorem raise_latch (e : Status) (s : State) : (raise e s).latch = s.latch := rfl
@[simp] theorem raise_result (e : Status) (s : State) : (raise e s).result = s.result := rfl
@[simp] theorem raise_resetPin (e : Status) (s : State) : (raise e s).resetPin = s.resetPin := rfl
@[simp] theorem raise_draws (e : Status) (s : State) : (raise e s).draws = s.draws := rfl

@[simp] theorem finishRounds_cfg (a : Lanes) (s : State) : (finishRounds a s).cfg = s.cfg := rfl
@[simp] theorem finishRounds_lanes (a : Lanes) (s : State) : (finishRounds a s).lanes = a := rfl
@[simp] theorem finishRounds_pend (a : Lanes) (s : State) : (finishRounds a s).pend = s.pend := rfl
@[simp] theorem finishRounds_phase (a : Lanes) (s : State) :
    (finishRounds a s).phase = s.phase := rfl
@[simp] theorem finishRounds_scratch (a : Lanes) (s : State) :
    (finishRounds a s).scratch = freeScratch s.draws s.cfg.wmask := rfl
@[simp] theorem finishRounds_port (a : Lanes) (s : State) : (finishRounds a s).port = s.port := rfl
@[simp] theorem finishRounds_responses (a : Lanes) (s : State) :
    (finishRounds a s).responses = s.responses := rfl
@[simp] theorem finishRounds_latch (a : Lanes) (s : State) :
    (finishRounds a s).latch = s.latch := rfl
@[simp] theorem finishRounds_result (a : Lanes) (s : State) :
    (finishRounds a s).result = s.result := rfl
@[simp] theorem finishRounds_resetPin (a : Lanes) (s : State) :
    (finishRounds a s).resetPin = s.resetPin := rfl
@[simp] theorem finishRounds_draws (a : Lanes) (s : State) :
    (finishRounds a s).draws = s.draws + 1 := rfl

@[simp] theorem establish_cfg (c : ConfigRegs) (s : State) : (establish c s).cfg = c := rfl
@[simp] theorem establish_lanes (c : ConfigRegs) (s : State) :
    (establish c s).lanes = lanesOf fun _ => 0 := rfl
@[simp] theorem establish_pend (c : ConfigRegs) (s : State) : (establish c s).pend = [] := rfl
@[simp] theorem establish_phase (c : ConfigRegs) (s : State) :
    (establish c s).phase = .configured := rfl
@[simp] theorem establish_scratch (c : ConfigRegs) (s : State) :
    (establish c s).scratch = s.scratch := rfl
@[simp] theorem establish_port (c : ConfigRegs) (s : State) : (establish c s).port = s.port := rfl
@[simp] theorem establish_responses (c : ConfigRegs) (s : State) :
    (establish c s).responses = s.responses := rfl
@[simp] theorem establish_latch (c : ConfigRegs) (s : State) :
    (establish c s).latch = s.latch := rfl
@[simp] theorem establish_result (c : ConfigRegs) (s : State) :
    (establish c s).result = s.result := rfl
@[simp] theorem establish_resetPin (c : ConfigRegs) (s : State) :
    (establish c s).resetPin = s.resetPin := rfl
@[simp] theorem establish_draws (c : ConfigRegs) (s : State) :
    (establish c s).draws = s.draws := rfl

@[simp] theorem hardwareReset_cfg (s : State) : (hardwareReset s).cfg = freeConfig s.draws := rfl
@[simp] theorem hardwareReset_lanes (s : State) :
    (hardwareReset s).lanes = lanesOf fun i => Config.freeWord s.draws (35 + i.val) := rfl
@[simp] theorem hardwareReset_pend (s : State) :
    (hardwareReset s).pend = Config.freeBits s.draws := rfl
@[simp] theorem hardwareReset_phase (s : State) : (hardwareReset s).phase = .unconfigured := rfl
@[simp] theorem hardwareReset_scratch (s : State) :
    (hardwareReset s).scratch = freeScratch s.draws (mask 64) := rfl
@[simp] theorem hardwareReset_port (s : State) : (hardwareReset s).port = s.port := rfl
@[simp] theorem hardwareReset_responses (s : State) :
    (hardwareReset s).responses = s.responses := rfl
@[simp] theorem hardwareReset_latch (s : State) : (hardwareReset s).latch = s.latch := rfl
@[simp] theorem hardwareReset_result (s : State) : (hardwareReset s).result = s.result := rfl
@[simp] theorem hardwareReset_resetPin (s : State) : (hardwareReset s).resetPin = .low := rfl
@[simp] theorem hardwareReset_draws (s : State) : (hardwareReset s).draws = s.draws + 1 := rfl

@[simp] theorem abandonCommand_cfg (s : State) : (abandonCommand s).cfg = s.cfg := by
  unfold abandonCommand; split <;> rfl
@[simp] theorem abandonCommand_lanes (s : State) : (abandonCommand s).lanes = s.lanes := by
  unfold abandonCommand; split <;> rfl
@[simp] theorem abandonCommand_pend (s : State) : (abandonCommand s).pend = s.pend := by
  unfold abandonCommand; split <;> rfl
@[simp] theorem abandonCommand_phase (s : State) : (abandonCommand s).phase = s.phase := by
  unfold abandonCommand; split <;> rfl
@[simp] theorem abandonCommand_scratch (s : State) : (abandonCommand s).scratch = s.scratch := by
  unfold abandonCommand; split <;> rfl
@[simp] theorem abandonCommand_responses (s : State) : (abandonCommand s).responses = s.responses := by
  unfold abandonCommand; split <;> rfl
@[simp] theorem abandonCommand_result (s : State) : (abandonCommand s).result = s.result := by
  unfold abandonCommand; split <;> rfl
@[simp] theorem abandonCommand_resetPin (s : State) : (abandonCommand s).resetPin = s.resetPin := by
  unfold abandonCommand; split <;> rfl
@[simp] theorem abandonCommand_draws (s : State) : (abandonCommand s).draws = s.draws := by
  unfold abandonCommand; split <;> rfl
@[simp] theorem abandonCommand_latch (s : State) : (abandonCommand s).latch = none := by
  unfold abandonCommand; split
  · rfl
  · assumption
theorem abandonCommand_port (s : State) :
    (abandonCommand s).port = if s.latch = none then s.port.tail else s.port := by
  unfold abandonCommand; split <;> simp [*]

@[simp] theorem returnFree_cfg (v : Nat → OpResult) (s : State) : (returnFree v s).cfg = s.cfg := rfl
@[simp] theorem returnFree_lanes (v : Nat → OpResult) (s : State) : (returnFree v s).lanes = s.lanes := rfl
@[simp] theorem returnFree_pend (v : Nat → OpResult) (s : State) : (returnFree v s).pend = s.pend := rfl
@[simp] theorem returnFree_phase (v : Nat → OpResult) (s : State) : (returnFree v s).phase = s.phase := rfl
@[simp] theorem returnFree_scratch (v : Nat → OpResult) (s : State) : (returnFree v s).scratch = s.scratch := rfl
@[simp] theorem returnFree_port (v : Nat → OpResult) (s : State) : (returnFree v s).port = s.port := rfl
@[simp] theorem returnFree_responses (v : Nat → OpResult) (s : State) : (returnFree v s).responses = s.responses := rfl
@[simp] theorem returnFree_latch (v : Nat → OpResult) (s : State) : (returnFree v s).latch = s.latch := rfl
@[simp] theorem returnFree_resetPin (v : Nat → OpResult) (s : State) : (returnFree v s).resetPin = s.resetPin := rfl
@[simp] theorem returnFree_result (v : Nat → OpResult) (s : State) :
    (returnFree v s).result = some (v s.draws) := rfl
@[simp] theorem returnFree_draws (v : Nat → OpResult) (s : State) :
    (returnFree v s).draws = s.draws + 1 := rfl

@[simp] theorem presentCommand_port (c : CommandItem) (s : State) :
    (s.present (.command c)).port = c :: s.port := rfl
@[simp] theorem presentCommand_latch (c : CommandItem) (s : State) :
    (s.present (.command c)).latch = none := rfl
@[simp] theorem presentCommand_resetPin (c : CommandItem) (s : State) :
    (s.present (.command c)).resetPin = .low := rfl
@[simp] theorem presentUop_latch (u : UopItem) (s : State) :
    (s.present (.uop u)).latch = some u := rfl
@[simp] theorem presentUop_port (u : UopItem) (s : State) : (s.present (.uop u)).port = s.port := rfl
@[simp] theorem presentUop_resetPin (u : UopItem) (s : State) :
    (s.present (.uop u)).resetPin = .low := rfl

end Sys2Proof.Machine
end

