-- ==== Sys2Proof/Laws/Ops.lean ====
section
/-! SUPPORT. One lemma per shared operation of Machine/Ops.lean, which says all it can do. -/

namespace Sys2Proof.Machine

theorem finishRounds_same (a : Lanes) (s : State) :
    SameButScratch { s with lanes := a } (finishRounds a s) := rfl

theorem permute_of_le (s : State) (h : s.cfg.nr.toNat ≤ 24) :
    permute s = .ok (finishRounds (s.cfg.keccak s.lanes) s) := by
  simp [permute, Nat.not_lt.mpr h, ConfigRegs.keccak]

theorem permute_of_gt (s : State) (h : 24 < s.cfg.nr.toNat) :
    permute s = .error .unsupportedRoundCount := by simp [permute, h]

theorem SameButScratch.trans {s t u : State} (h1 : SameButScratch s t) (h2 : SameButScratch t u) :
    SameButScratch s u := by
  cases s; cases t; cases u; simp_all [SameButScratch]

theorem SameButScratch.iff {s t : State} : SameButScratch s t ↔
    t.cfg = s.cfg ∧ t.lanes = s.lanes ∧ t.pend = s.pend ∧ t.phase = s.phase ∧ t.port = s.port ∧
    t.responses = s.responses ∧ t.latch = s.latch ∧ t.result = s.result ∧ t.resetPin = s.resetPin := by
  cases s; cases t; simp [SameButScratch]; grind

theorem absorbBlocks_spec (ps : List Bits) (s : State) (h : s.cfg.nr.toNat ≤ 24) :
    ∃ t, absorbBlocks ps s = .ok t ∧ SameButScratch { s with lanes := s.cfg.absorb ps s.lanes } t ∧
      t.draws = s.draws + ps.length := by
  induction ps generalizing s with
  | nil => exact ⟨s, rfl, rfl, rfl⟩
  | cons p ps ih =>
    obtain ⟨t, h1, h2, h3⟩ := ih (finishRounds (s.cfg.keccak (xorBlock s.cfg.w.toNat p s.lanes))
      { s with lanes := xorBlock s.cfg.w.toNat p s.lanes }) h
    refine ⟨t, ?_, h2, ?_⟩
    · rw [absorbBlocks, absorbBlock, permute_of_le _ (by exact h)]; exact h1
    · rw [h3]; simp [finishRounds]; omega

theorem absorbBlocks_error (p : Bits) (ps : List Bits) (s : State) (h : 24 < s.cfg.nr.toNat) :
    absorbBlocks (p :: ps) s = .error .unsupportedRoundCount := by
  simp [absorbBlocks, absorbBlock, permute_of_gt, h]

theorem squeezeMore_spec (n : Nat) (z : Bits) (s : State) (h : s.cfg.nr.toNat ≤ 24) :
    ∃ t, squeezeMore n z s = .ok (z ++ (List.range n).flatMap fun k =>
        (stateBits s.cfg.w.toNat (s.cfg.keccak^[k + 1] s.lanes)).take s.cfg.rate.toNat, t) ∧
      SameButScratch { s with lanes := s.cfg.keccak^[n] s.lanes } t ∧ t.draws = s.draws + n := by
  induction n generalizing z s with
  | zero => exact ⟨s, by simp [squeezeMore], rfl, rfl⟩
  | succ n ih =>
    simp only [squeezeMore, permute_of_le s h]
    obtain ⟨t, h1, h2, h3⟩ := ih (z ++ extract (finishRounds (s.cfg.keccak s.lanes) s))
      (finishRounds (s.cfg.keccak s.lanes) s) h
    refine ⟨t, ?_, h2, by rw [h3]; simp [finishRounds]; omega⟩
    rw [h1, List.range_succ_eq_map]
    simp [List.flatMap_map, extract, finishRounds]

theorem squeeze_spec (s : State) (h : s.cfg.nr.toNat ≤ 24) :
    ∃ t, squeeze s = .ok (s.cfg.squeeze s.lanes, t) ∧
      SameButScratch { s with lanes := s.cfg.squeezed s.lanes } t ∧
      t.draws = s.draws + (s.cfg.extractions - 1) := by
  unfold squeeze
  have e : extractions s = s.cfg.extractions := rfl
  rw [e]
  rcases hk : s.cfg.extractions with _ | k
  · exact ⟨s, by simp [ConfigRegs.squeeze, hk], by simp [SameButScratch, ConfigRegs.squeezed, hk], by simp⟩
  · obtain ⟨t, h1, h2, h3⟩ := squeezeMore_spec k (extract s) s h
    refine ⟨t, ?_, by simpa [ConfigRegs.squeezed, hk] using h2, by simpa using h3⟩
    simp only [h1, ConfigRegs.squeeze, hk, List.range_succ_eq_map]
    simp [List.flatMap_map, extract]

theorem ConfigRegs.Valid.nr_le {c : ConfigRegs} (h : c.Valid) : c.nr.toNat ≤ 24 := by
  have := h.rounds; have := h.log_le; omega

theorem ConfigRegs.Valid.rate_ne {c : ConfigRegs} (h : c.Valid) : c.rate ≠ 0#11 := by
  intro e; have := h.rate_pos; simp [e] at this
theorem ConfigRegs.Valid.w_le {c : ConfigRegs} (h : c.Valid) : c.w.toNat ≤ 64 := by
  have := h.log; have := h.log_le
  rw [h.log]; exact le_trans (Nat.pow_le_pow_right (by norm_num) h.log_le) (by norm_num)

theorem ConfigRegs.squeeze_length {c : ConfigRegs} (h : c.Valid) (a : Lanes) :
    (c.squeeze a).length = c.outsz.toNat := by
  have h1 := h.rate_pos
  have hr : c.rate.toNat ≤ 25 * c.w.toNat := by have := h.sum; have := h.width; omega
  rw [squeeze, List.length_take, flatMap_length_const _ c.rate.toNat (by simp; omega), List.length_range]
  apply Nat.min_eq_left
  rw [ConfigRegs.extractions, ceilDiv]
  have := Nat.div_add_mod (c.outsz.toNat + c.rate.toNat - 1) c.rate.toNat
  have := Nat.mod_lt (c.outsz.toNat + c.rate.toNat - 1) h1
  omega

/-- `t` is `s` but for the lanes, the scratch arrays and the counter of free values: all that the
permutation can change. -/
def SameButLanes (s t : State) : Prop :=
  { s with lanes := t.lanes, scratch := t.scratch, draws := t.draws } = t

theorem SameButLanes.trans {s t u : State} (h1 : SameButLanes s t) (h2 : SameButLanes t u) : SameButLanes s u := by
  cases s; cases t; cases u; simp_all [SameButLanes]
theorem SameButLanes.iff {s t : State} : SameButLanes s t ↔
    t.cfg = s.cfg ∧ t.pend = s.pend ∧ t.phase = s.phase ∧ t.port = s.port ∧
    t.responses = s.responses ∧ t.latch = s.latch ∧ t.result = s.result ∧ t.resetPin = s.resetPin := by
  cases s; cases t; simp [SameButLanes]; grind

theorem permute_cases (s : State) : (s.cfg.nr.toNat ≤ 24 ∧ ∃ t, permute s = .ok t ∧ SameButLanes s t) ∨
   (24 < s.cfg.nr.toNat ∧ permute s = .error .unsupportedRoundCount) := by
  by_cases h : 24 < s.cfg.nr.toNat
  · exact .inr ⟨h, permute_of_gt s h⟩
  · exact .inl ⟨by omega, _, permute_of_le s (by omega), rfl⟩

theorem absorbBlock_cases (p) (s : State) : (s.cfg.nr.toNat ≤ 24 ∧ ∃ t, absorbBlock p s = .ok t ∧ SameButLanes s t) ∨
   (24 < s.cfg.nr.toNat ∧ absorbBlock p s = .error .unsupportedRoundCount) :=
  (permute_cases { s with lanes := xorBlock s.cfg.w.toNat p s.lanes }).imp_left
    fun ⟨h, t, h1, h2⟩ => ⟨h, t, h1, h2⟩

theorem absorbBlocks_cases (ps) (s : State) : (∃ t, absorbBlocks ps s = .ok t ∧ SameButLanes s t) ∨
   (24 < s.cfg.nr.toNat ∧ absorbBlocks ps s = .error .unsupportedRoundCount) := by
  induction ps generalizing s with
  | nil => exact .inl ⟨s, rfl, rfl⟩
  | cons p ps ih =>
    rcases absorbBlock_cases p s with ⟨_, t, h1, h2⟩ | ⟨h, h1⟩
    · rcases ih t with ⟨u, h3, h4⟩ | ⟨h3, h4⟩
      · exact .inl ⟨u, by simp only [absorbBlocks, h1, h3], h2.trans h4⟩
      · rw [(SameButLanes.iff.1 h2).1] at h3
        exact .inr ⟨h3, by simp only [absorbBlocks, h1, h4]⟩
    · exact .inr ⟨h, by simp only [absorbBlocks, h1]⟩

theorem squeezeMore_cases (n z) (s : State) : (∃ z' t, squeezeMore n z s = .ok (z', t) ∧ SameButLanes s t) ∨
   (24 < s.cfg.nr.toNat ∧ squeezeMore n z s = .error .unsupportedRoundCount) := by
  induction n generalizing z s with
  | zero => exact .inl ⟨z, s, rfl, rfl⟩
  | succ n ih =>
    rcases permute_cases s with ⟨_, t, h1, h2⟩ | ⟨h, h1⟩
    · rcases ih (z ++ extract t) t with ⟨z', u, h3, h4⟩ | ⟨h3, h4⟩
      · exact .inl ⟨z', u, by simp only [squeezeMore, h1, h3], h2.trans h4⟩
      · rw [(SameButLanes.iff.1 h2).1] at h3
        exact .inr ⟨h3, by simp only [squeezeMore, h1, h4]⟩
    · exact .inr ⟨h, by simp only [squeezeMore, h1]⟩

theorem squeeze_cases (s : State) : (∃ z t, squeeze s = .ok (z, t) ∧ SameButLanes s t) ∨
   (24 < s.cfg.nr.toNat ∧ squeeze s = .error .unsupportedRoundCount) := by
  unfold squeeze
  split
  · exact .inl ⟨_, s, rfl, rfl⟩
  · rename_i k _
    rcases squeezeMore_cases k (extract s) s with ⟨z', u, h3, h4⟩ | ⟨h3, h4⟩
    · exact .inl ⟨z'.take s.cfg.outsz.toNat, u, by simp only [h3], h4⟩
    · exact .inr ⟨h3, by simp only [h4]⟩

/-- The blocks of a configuration are what the block loops take. -/
theorem blocks_eq_chunks (c : ConfigRegs) (p : Bits) :
    c.blocks p = chunks c.rate.toNat (p.length / c.rate.toNat) p :=
  (chunks_eq_map _ _ _).symm

theorem blockOf_length (rate draw : Nat) (p : Bits) : (blockOf rate draw p).length = rate := by
  simp [blockOf]

/-- ABSORB_BLOCK reads the bits that its operand has. -/
theorem blockOf_getElem? (rate draw : Nat) (p : Bits) (j : Nat) (h : j < rate) (hp : j < p.length) :
    (blockOf rate draw p)[j]? = p[j]? := by
  simp [blockOf, h, hp]

/-- A block is read as it stands. -/
theorem blockOf_self (rate draw : Nat) (p : Bits) (h : p.length = rate) : blockOf rate draw p = p := by
  apply List.ext_getElem?
  intro j
  by_cases hj : j < rate
  · exact blockOf_getElem? rate draw p j hj (h ▸ hj)
  · rw [List.getElem?_eq_none (by simp [blockOf]; omega), List.getElem?_eq_none (by omega)]

/-- A round index of the table has the constant of the table. -/
theorem roundConstant_of_lt (i : BitVec 32) (draw : Nat) (h : i.toNat < 24) :
    roundConstant i draw = rcTable[i.toNat] := by simp [roundConstant, h]

theorem absorb_append (c : ConfigRegs) (p q a) : c.absorb (p ++ q) a = c.absorb q (c.absorb p a) := by
  simp [ConfigRegs.absorb]

/-- The blocks of a message with more bits behind it are its own and those of its remainder with the
bits behind. -/
theorem blocks_append (c : ConfigRegs) (h : 1 ≤ c.rate.toNat) (m x : Bits) :
    c.blocks (m ++ x) = c.blocks m ++ c.blocks (m.drop (m.length / c.rate.toNat * c.rate.toNat) ++ x) ∧
    (m ++ x).drop ((m ++ x).length / c.rate.toNat * c.rate.toNat) =
      (m.drop (m.length / c.rate.toNat * c.rate.toNat) ++ x).drop
        ((m.drop (m.length / c.rate.toNat * c.rate.toNat) ++ x).length / c.rate.toNat * c.rate.toNat) := by
  simp only [blocks_eq_chunks]
  generalize c.rate.toNat = r at *
  have h0 : m.length / r * r ≤ m.length := Nat.div_mul_le_self _ _
  have hl : (m.drop (m.length / r * r) ++ x).length = (m ++ x).length - m.length / r * r := by simp; omega
  have e : (m ++ x).length / r = m.length / r + (m.drop (m.length / r * r) ++ x).length / r := by
    rw [hl]
    conv_lhs => rw [show (m ++ x).length = ((m ++ x).length - m.length / r * r) + r * (m.length / r) by
      have : m.length ≤ (m ++ x).length := by simp
      rw [Nat.mul_comm r]; omega]
    rw [Nat.add_mul_div_left _ _ h]; omega
  constructor
  · rw [e, chunks_add, chunks_append _ _ _ _ h0, List.drop_append_of_le_length h0]
  · rw [e, Nat.add_mul, ← List.drop_drop, List.drop_append_of_le_length h0]

end Sys2Proof.Machine
end

