-- ==== Sys2Proof/Laws/PerInstr.lean ====
section
/-! SUPPORT. The per-instruction family `RoundTrip`: what the encoder writes for a well-formed
instruction, the decoder reads back. -/

namespace Sys2Proof.Laws.RoundTrip

/-- Decoding the encoding of the instruction gives it back, if it is well formed. -/
def Statement (i : Instr) : Prop := i.wellFormed = true → decode (encode i) = .ok i

theorem idle : Statement (.idle) := fun _ => rfl

theorem init (rate capacity outputSize : BitVec 32) : Statement (.init rate capacity outputSize) := by
  intro _
  simp [encode, decode, decodeCommand, commandOf, announcedLength, opField_commandWord,
    p0Field_commandWord, p1Field_commandWord, p2Field_commandWord]

theorem absorb (payload : List Byte) : Statement (.absorb payload) := by
  intro h
  simp [Instr.wellFormed] at h
  simp [encode, decode, decodeCommand, commandOf, announcedLength, opField_commandWord,
    p0Field_commandWord, Nat.mod_eq_of_lt h]

theorem finalize (payload : List Byte) (t : BitVec 3) (v : Byte) : Statement (.finalize payload t v) := by
  intro h
  simp [Instr.wellFormed] at h
  simp [encode, decode, decodeCommand, commandOf, announcedLength, opField_commandWord,
    p0Field_commandWord, Nat.mod_eq_of_lt h, tailCountField_commandWord, tailByteField_commandWord]

theorem rotl (x : Word) (n : BitVec 32) (w : LaneWidth) : Statement (.rotl x n w) := fun _ => rfl

theorem log2 (w : BitVec 32) : Statement (.log2 w) := by
  intro _
  simp [encode, decode, decodeUop]

theorem theta : Statement (.theta) := fun _ => rfl

theorem rhopi : Statement (.rhopi) := fun _ => rfl

theorem chi : Statement (.chi) := fun _ => rfl

theorem iota (i : BitVec 32) : Statement (.iota i) := fun _ => rfl

theorem round (i : BitVec 32) : Statement (.round i) := fun _ => rfl

theorem permute : Statement (.permute) := fun _ => rfl

theorem pad (m : Bits) (r : BitVec 32) : Statement (.pad m r) := by
  intro _
  simp [encode, decode, decodeUop]

theorem absorbBlock (p : Bits) : Statement (.absorbBlock p) := fun _ => rfl

theorem squeeze : Statement (.squeeze) := fun _ => rfl

end Sys2Proof.Laws.RoundTrip
end

