-- ==== Sys2Proof/Laws/Sponge.lean ====
section
/-! SUPPORT. The configuration a successful INIT writes (R130), and the phases that accept input
(R162). -/

namespace Sys2Proof.Machine

/-- INIT's four checks accept exactly the operands of `InitLegal` (R130, R161). -/
theorem initLegal_iff (r c : BitVec 32) : InitLegal r c ↔
    (r.toNat + c.toNat) % 25 = 0 ∧ (∃ l, log2 ((r.toNat + c.toNat) / 25) = some l) ∧ r ≠ 0#32 := by
  unfold InitLegal
  constructor
  · rintro ⟨h, hr⟩
    simp at h
    rcases h with h | h | h | h | h | h | h <;> rw [h] <;> refine ⟨by norm_num, ⟨_, rfl⟩, hr⟩
  · rintro ⟨h1, ⟨l, hl⟩, hr⟩
    refine ⟨?_, hr⟩
    obtain ⟨h2, h3⟩ := log2_some hl
    have h4 : r.toNat + c.toNat = 25 * 2 ^ l := by omega
    rw [h4]
    interval_cases l <;> simp

theorem initConfig_fields (r c n : BitVec 32) (l : Nat) (h : l ≤ 6) (hs : r.toNat + c.toNat = 25 * 2 ^ l) :
    (initConfig r c n l).rate.toNat = r.toNat ∧ (initConfig r c n l).cap.toNat = c.toNat ∧
    (initConfig r c n l).outsz = n ∧ (initConfig r c n l).stsz.toNat = 25 * 2 ^ l ∧
    (initConfig r c n l).w.toNat = 2 ^ l ∧ (initConfig r c n l).l.toNat = l ∧
    (initConfig r c n l).nr.toNat = 12 + 2 * l ∧ (initConfig r c n l).wmask = mask (2 ^ l) := by
  have : 2 ^ l ≤ 64 := le_trans (Nat.pow_le_pow_right (by norm_num) h) (by norm_num : 2 ^ 6 ≤ 64)
  simp only [initConfig, hs, BitVec.toNat_setWidth, BitVec.toNat_ofNat, Nat.mul_div_cancel_left _ (by norm_num : 0 < 25)]
  refine ⟨?_, ?_, trivial, ?_, ?_, ?_, ?_, trivial⟩ <;> apply Nat.mod_eq_of_lt <;> omega

theorem initConfig_valid (r c n : BitVec 32) (l : Nat) (h : l ≤ 6) (hs : r.toNat + c.toNat = 25 * 2 ^ l) (hr : r ≠ 0#32) :
    (initConfig r c n l).Valid := by
  obtain ⟨h1, h2, h3, h4, h5, h6, h7, h8⟩ := initConfig_fields r c n l h hs
  have hr' : r.toNat ≠ 0 := fun e => hr (BitVec.eq_of_toNat_eq e)
  exact ⟨by omega, by omega, by omega, by omega, by rw [h5, h6], by omega, by rw [h8, h5]⟩

theorem accepting_iff (p : Phase) : p.accepting = true ↔ p = .configured ∨ p = .absorbing := by
  cases p <;> simp [Phase.accepting]

theorem not_accepting_iff (p : Phase) : p.accepting = false ↔ p = .unconfigured ∨ p = .finalized := by
  cases p <;> simp [Phase.accepting]

end Sys2Proof.Machine
end

