-- ==== Sys2Proof/Tests/Slice0.lean ====
section
/-! SUPPORT. The model's own tests. Expected values are those of 95_test_vectors.md (V1 to V7), of the
tables of 30_encoding.md, or worked out by hand from the rule named. The last part shows, for each
obligation with hypotheses, a concrete state and operands that meet them. -/

set_option maxRecDepth 100000

namespace Sys2Proof.Tests

open Sys2Proof Sys2Proof.Machine

/-! ## Helpers -/

/-- The state an outcome goes on with, and reset for a stop. -/
def after : Host.Outcome State Fault Refusal → State
  | .next s => s | .fault _ => State.reset | .refused _ => State.reset

/-- Whether an outcome is a next state. -/
def goesOn : Host.Outcome State Fault Refusal → Bool
  | .next _ => true | .fault _ => false | .refused _ => false

/-- The refusal of an outcome. -/
def refusal : Host.Outcome State Fault Refusal → Option Refusal
  | .next _ => none | .fault _ => none | .refused r => some r

/-- The configuration of W = 8 (`INIT 40, 160, 80`, V4). -/
def cfg8 : ConfigRegs := ⟨40, 160, 80, 200, 8, 3, 18, 0xFF⟩

/-- The configuration of W = 1 (`INIT 5, 20, 10`, V4). -/
def cfg1 : ConfigRegs := ⟨5, 20, 10, 25, 1, 0, 12, 0x1⟩

/-- The configuration of W = 64 (`INIT 1088, 512, 256`, V4). -/
def cfg64 : ConfigRegs := ⟨1088, 512, 256, 1600, 64, 6, 24, 0xFFFFFFFFFFFFFFFF⟩

/-- The test state `T` of V2 for W = 8: `A[i] = i + 1`, and `B` the same. -/
def stateT8 : State :=
  { State.reset with
    cfg := cfg8, phase := .configured
    lanes := lanesOf fun i => BitVec.ofNat 64 (i.val + 1)
    scratch := ⟨columnsOf fun _ => 0, columnsOf fun _ => 0,
      lanesOf fun i => BitVec.ofNat 64 (i.val + 1)⟩ }

/-- A fresh instance of W = 1. -/
def fresh1 : State := { State.reset with cfg := cfg1, phase := .configured }

/-- The lanes of a state as numbers. -/
def lanesOfState (s : State) : List Nat := s.lanes.toList.map BitVec.toNat

/-- The statuses and digests of the responses. -/
def answers (s : State) : List (Nat × List Nat) :=
  s.responses.map fun r => (r.status.code.toNat, r.digest.map BitVec.toNat)

/-! ## Well-formedness: each check refuses a term -/

theorem test_wf_absorb_length : Instr.wellFormed (.absorb []) = true ∧
    ∀ d : List Byte, d.length = 2 ^ 32 → Instr.wellFormed (.absorb d) = false :=
  ⟨by decide, fun d h => by simp [Instr.wellFormed, h]⟩

theorem test_wf_finalize_length (d : List Byte) (h : d.length = 2 ^ 32) :
    Instr.wellFormed (.finalize d 0 0) = false := by simp [Instr.wellFormed, h]

theorem test_wf_payload_short : Instr.wellFormed (.absorb [0x61]) = true ∧
    Instr.wellFormed (.finalize [0x61] 7 0xFF) = true := by decide

/-! ## Decoding: one word of every row, written out from R71 to R74 and R79 -/

/-- V4: `INIT 1088, 512, 256` is `0x1_00000440_00000200_00000100`. -/
theorem test_decode_init : decodeTableWord 104 0x1_00000440_00000200_00000100 =
    some (.init 1088 512 256) := by decide

/-- R76: operation code 0; R73: the operand fields are ignored. -/
theorem test_decode_idle : decodeCommand ⟨0x0_FFFFFFFF_12345678_9ABCDEF0, []⟩ = .ok .idle := by decide

theorem test_decode_absorb :
    decodeCommand ⟨0x2_00000003_FFFFFFFF_00000001, [0x61, 0x62, 0x63]⟩ =
      .ok (.absorb [0x61, 0x62, 0x63]) := by decide

/-- R74: `t = p1[2:0]`, `v = p2[7:0]`, the bits above ignored. -/
theorem test_decode_finalize :
    decodeCommand ⟨0x3_00000001_FFFFFFFA_ABCDEF02, [0xA3]⟩ = .ok (.finalize [0xA3] 2 2) := by decide

/-- U7: a payload of another length than announced. -/
theorem test_decode_payload_length :
    decodeCommand ⟨0x2_00000002_00000000_00000000, [0x61]⟩ = .error .payloadLength ∧
    decodeCommand ⟨0x1_00000005_00000014_0000000A, [0x61]⟩ = .error .payloadLength := by decide

/-- R79: the tags, the operand lines as the encoder lays them. -/
theorem test_decode_tags :
    decodeUop ⟨0b0000, 0x81, 44, .w8, []⟩ = .ok (.rotl 0x81 44 .w8) ∧
    decodeUop ⟨0b0001, 0, 63, .w1, []⟩ = .ok (.log2 64) ∧
    decodeTableWord 8 0b0010 = some .theta ∧
    decodeTableWord 8 0b0011 = some .rhopi ∧
    decodeTableWord 8 0b0100 = some .chi ∧
    decodeUop ⟨0b0101, 0, 23, .w1, []⟩ = .ok (.iota 23) ∧
    decodeUop ⟨0b0110, 0, 1, .w1, []⟩ = .ok (.round 1) ∧
    decodeTableWord 8 0b0111 = some .permute ∧
    decodeUop ⟨0b1000, 0, 4, .w1, [true]⟩ = .ok (.pad [true] 5) ∧
    decodeUop ⟨0b1001, 0, 0, .w1, [true, false]⟩ = .ok (.absorbBlock [true, false]) ∧
    decodeTableWord 8 0b1010 = some .squeeze := by decide

theorem test_decode_rejects :
    decodeTableWord 8 0xB = none ∧ decodeTableWord 8 0xF = none ∧ decodeTableWord 8 0x12 = none ∧
    decodeUop ⟨0xB, 0, 0, .w64, []⟩ = .error .unassignedTag := by decide

/-! ## Every row runs as the first instruction after reset -/

theorem test_first_step_commands : ((List.range 4).all fun k =>
    goesOn (step (State.reset.withFetchWord 104 (k * 2 ^ 96)))) = true := by decide +kernel

theorem test_first_step_operations : ((List.range 11).all fun k =>
    goesOn (step (State.reset.withFetchWord 8 k))) = true := by decide +kernel

/-! ## Values -/

/-- V1: 44 mod 8 = 4. -/
theorem test_rotl_narrow :
    (after (exec (.rotl 0x81 44 .w8) State.reset)).result = some (.word 0x18) := by decide +kernel

/-- An `x` that is no word of `W` bits does not stop the machine (log 20). -/
theorem test_rotl_too_wide : goesOn (exec (.rotl 0x100 1 .w8) State.reset) = true := rfl

/-- V1: rotation by 62 at W = 64. -/
theorem test_rotl_wide : (after (exec (.rotl 0x0123456789ABCDEF 62 .w64) State.reset)).result =
    some (.word 0xC048D159E26AF37B) := by decide +kernel

/-- V1. -/
theorem test_log2 : (after (exec (.log2 64) State.reset)).result = some (.number 6) ∧
    refusal (exec (.log2 96) State.reset) = some .log2OutsideDomain := by decide +kernel

/-- V2.1 (W = 8). -/
theorem test_theta : lanesOfState (after (exec .theta stateT8)) =
    [0x10, 0x0D, 0x1D, 0x1D, 0x1F, 0x17, 0x08, 0x16, 0x10, 0x10, 0x1A, 0x03, 0x13, 0x17, 0x15,
      0x01, 0x1E, 0x0C, 0x0A, 0x0E, 0x04, 0x19, 0x09, 0x01, 0x03] := by decide +kernel

/-- V2.1 (W = 8): the scratch arrays `C` and `D`. -/
theorem test_theta_scratch : (after (exec .theta stateT8)).scratch.c.toList = [0x09, 0x0E, 0x03, 0x08, 0x0D] ∧
    (after (exec .theta stateT8)).scratch.d.toList = [0x11, 0x0F, 0x1E, 0x19, 0x1A] := by decide +kernel

/-- V2.3 (W = 8). -/
theorem test_rhopi : (after (exec .rhopi stateT8)).scratch.b.toList.map BitVec.toNat =
    [0x01, 0x70, 0x68, 0x62, 0x46, 0x40, 0xA0, 0x58, 0x22, 0xE2, 0x04, 0x02, 0x1C, 0x14, 0x54,
      0x28, 0x60, 0x30, 0x09, 0x18, 0xC0, 0x84, 0x87, 0x20, 0x58] := by decide +kernel

/-- V2.4 (W = 8). -/
theorem test_chi : lanesOfState (after (exec .chi stateT8)) =
    [0x00, 0x06, 0x02, 0x04, 0x07, 0x0E, 0x06, 0x0A, 0x0D, 0x0B, 0x0A, 0x0E, 0x0C, 0x0E, 0x0B,
      0x12, 0x10, 0x16, 0x13, 0x15, 0x14, 0x1E, 0x16, 0x1C, 0x1B] := by decide +kernel

/-- V2.5 (W = 8): the constant of round 3 masks to zero, that of round 17 does not. -/
theorem test_iota : (after (exec (.iota 3) stateT8)).lanes[0] = 0x01 ∧
    (after (exec (.iota 17) stateT8)).lanes[0] = 0x81 := by decide +kernel

/-- V2.6 (W = 8). -/
theorem test_round : lanesOfState (after (exec (.round 0) stateT8)) =
    [0x09, 0xC1, 0x18, 0x51, 0x40, 0x01, 0x02, 0xF0, 0x13, 0x21, 0x30, 0x85, 0x3E, 0x04, 0x95,
      0xF4, 0x73, 0x0D, 0xFE, 0x00, 0xC5, 0x08, 0xEE, 0x01, 0x6C] := by decide +kernel

/-- V2.9 (W = 1). -/
theorem test_permute_narrow : lanesOfState (after (exec .permute fresh1)) =
    [0, 0, 1, 1, 0, 1, 1, 0, 0, 1, 0, 0, 0, 0, 0, 0, 0, 1, 0, 1, 0, 1, 0, 1, 0] := by decide +kernel

/-- V2.9 (W = 64), the first two lanes. -/
theorem test_permute_wide :
    (lanesOfState (after (exec .permute { fresh1 with cfg := cfg64 }))).take 2 =
      [0xF1258F7940E1DDE7, 0x84D5CCF933C0478A] := by decide +kernel

/-- V3.1: `r = 5`, `m = 4`; a rate of 0 does not stop the machine (log 11). -/
theorem test_pad :
    (after (exec (.pad [true, false, true, false] 5) State.reset)).result =
      some (.bits [true, false, true, false, true, false, false, false, false, true]) ∧
    goesOn (exec (.pad [] 0) State.reset) = true := by decide +kernel

/-- V3.2: the tight case (`t = 6`) and the multi-byte case (`t = 7`) at rate 16. -/
theorem test_pad_bytes : padBytes [0xA3] 6 0x55 16 = [0xA3, 0xD5] ∧
    padBytes [0xA3] 7 0x55 16 = [0xA3, 0xD5, 0x00, 0x80] := by decide +kernel

/-- V4: all eight registers for `INIT 40, 160, 80`, and the lanes zeroed. -/
theorem test_init : (after (exec (.init 40 160 80) stateT8)).cfg = cfg8 ∧
    (after (exec (.init 40 160 80) stateT8)).lanes = lanesOf (fun _ => 0) ∧
    answers (after (exec (.init 40 160 80) stateT8)) = [(0, [])] := by decide +kernel

/-- V4: the sum is exact (a wrapped sum would be 1600); rate 0 is refused. -/
theorem test_init_refuses :
    answers (after (exec (.init 4294967295 1601 256) stateT8)) = [(1, [])] ∧
    answers (after (exec (.init 0 1600 256) stateT8)) = [(1, [])] ∧
    (after (exec (.init 0 1600 256) stateT8)).cfg = cfg8 := by decide +kernel

/-- R131: 8 bits at rate 5 are one block and three pending bits; `0x61` is `1 0 0 0 0 1 1 0`. -/
theorem test_absorb : (after (exec (.absorb [0x61]) fresh1)).pend = [true, true, false] ∧
    (after (exec (.absorb [0x61]) fresh1)).phase = .absorbing := by decide +kernel

/-- R162: before any INIT. -/
theorem test_absorb_unconfigured : answers (after (exec (.absorb [0x61]) State.reset)) = [(2, [])] := by
  decide +kernel

/-- V5.7: `INIT 5, 20, 10 ; FINALIZE -` gives `6c03`. -/
theorem test_finalize : answers (after (exec (.finalize [] 0 0) fresh1)) = [(0, [0x6C, 0x03])] := by
  decide +kernel

/-- V5.7: `INIT 25, 0, 25 ; FINALIZE -` gives `3e248d00`: capacity 0, and 25 bits in four bytes. -/
theorem test_finalize_whole_state :
    answers (after (exec (.finalize [] 0 0) { fresh1 with cfg := ⟨25, 0, 25, 25, 1, 0, 12, 0x1⟩ })) =
      [(0, [0x3E, 0x24, 0x8D, 0x00])] := by decide +kernel

/-- R132 on the zero block of the zero state is PERMUTE of V2.9; another length does not stop the machine
(log 12). -/
theorem test_absorb_block :
    (lanesOfState (after (exec (.absorbBlock (List.replicate 5 false)) fresh1))).take 6 =
      [0, 0, 1, 1, 0, 1] ∧
    goesOn (exec (.absorbBlock [true]) fresh1) = true := by decide +kernel

/-- R137: `K = 2` extractions of 5 bits; the first is of the zero state, the second of V2.9's lanes
`0 0 1 1 0`. -/
theorem test_squeeze : (after (exec .squeeze fresh1)).result =
    some (.bits [false, false, false, false, false, false, false, true, true, false]) := by decide +kernel

/-- R76. -/
theorem test_idle : after (exec .idle stateT8) = stateT8 := by decide +kernel

/-- R163: the guard of PERMUTE. -/
theorem test_permute_guard :
    answers (after (exec .permute { stateT8 with cfg := { cfg8 with nr := 25 } })) = [(3, [])] ∧
    (after (exec .permute { stateT8 with cfg := { cfg8 with nr := 25 } })).lanes = stateT8.lanes := by
  decide +kernel

/-! ## Witnesses: the hypotheses of each obligation can be met -/

theorem cfg1_valid : cfg1.Valid := by constructor <;> decide

theorem cfg8_valid : cfg8.Valid := by constructor <;> decide

theorem cfg64_valid : cfg64.Valid := by constructor <;> decide

theorem stateT8_fits : Fits cfg8.w.toNat stateT8.lanes := by unfold Fits; decide

/-- An instance that has absorbed and holds four pending bits. -/
def absorbing1 : State :=
  { fresh1 with phase := .absorbing, pend := [true, false, false, true], lanes := lanesOf fun _ => 1 }

/-- An instance that has been finalised. -/
def finalized1 : State := { fresh1 with phase := .finalized, lanes := lanesOf fun _ => 1 }

/-- A state no run reaches, with a round count above 24. -/
def tooManyRounds : State := { fresh1 with cfg := { cfg1 with nr := 25 } }

/-- A state no run reaches, with a zero rate. -/
def zeroRate : State := { fresh1 with cfg := { cfg1 with rate := 0 } }

/-- `INIT 5, 20, 10` as it is presented. -/
def initItem : CommandItem := ⟨commandWord 1 5 20 10, []⟩

/-- A command whose payload is not of the announced length. -/
def badItem : CommandItem := ⟨commandWord 2 1 0 0, []⟩

/-- R180: a reset in the middle of the INIT on the port: the INIT is gone and is not answered. -/
theorem test_reset_during_command :
    (after (step { fresh1 with port := [initItem], resetPin := .duringCommand })).port = [] ∧
    answers (after (step { fresh1 with port := [initItem], resetPin := .duringCommand })) = [] := by
  decide +kernel

/-- R180: a reset before the INIT on the port leaves it presented. -/
theorem test_reset_between_commands :
    (after (step { fresh1 with port := [initItem], resetPin := .betweenCommands })).port = [initItem] := by
  decide +kernel

theorem inv_reset : State.reset.Inv := by
  constructor <;> intros <;> simp_all [State.reset, Phase.accepting]

theorem inv_fresh1 : fresh1.Inv := by
  refine ⟨rfl, fun _ => cfg1_valid, fun _ => ?_, fun _ => by decide, fun _ => ⟨rfl, by decide⟩, fun _ => rfl⟩
  unfold Fits; decide

theorem inv_absorbing1 : absorbing1.Inv := by
  refine ⟨rfl, fun _ => cfg1_valid, fun _ => ?_, fun _ => by decide, nofun, nofun⟩
  unfold Fits; decide

theorem inv_finalized1 : finalized1.Inv := by
  refine ⟨rfl, fun _ => cfg1_valid, fun _ => ?_, nofun, nofun, fun _ => rfl⟩
  unfold Fits; decide

theorem legal_bounds : InitLegal 1 24 ∧ InitLegal 25 0 ∧ InitLegal 1 1599 ∧ InitLegal 1600 0 ∧
    InitLegal 5 20 := by unfold InitLegal; decide

theorem illegal_bounds : ¬ InitLegal 0 25 ∧ ¬ InitLegal 0 1600 ∧ ¬ InitLegal 24 0 ∧ ¬ InitLegal 1601 0 ∧
    ¬ InitLegal 4294967295 1601 := by unfold InitLegal; decide

theorem witness_StepRunsThePresentedInstruction :
    ({ State.reset with resetPin := .betweenCommands } : State).resetPin = .betweenCommands ∧
    ({ State.reset with resetPin := .duringCommand } : State).resetPin = .duringCommand ∧
    (State.reset.resetPin = .low ∧ State.reset.latch = none ∧ State.reset.port = []) ∧
    (({ State.reset with port := [initItem] } : State).port = initItem :: [] ∧
      decodeCommand initItem = .ok (.init 5 20 10)) ∧
    (({ State.reset with port := [badItem] } : State).port = badItem :: [] ∧
      decodeCommand badItem = .error .payloadLength) ∧
    (({ State.reset with latch := some (plainUop 0xA) } : State).latch = some (plainUop 0xA) ∧
      decodeUop (plainUop 0xA) = .ok .squeeze) ∧
    (({ State.reset with latch := some (plainUop 0xB) } : State).latch = some (plainUop 0xB) ∧
      decodeUop (plainUop 0xB) = .error .unassignedTag) := by decide

theorem witness_DecodeOfEncodeIsTheInstruction :
    Instr.wellFormed (.finalize [0x61] 7 0xFF) = true ∧ Instr.wellFormed (.rotl 2 0xFFFFFFFF .w1) = true ∧
    Instr.wellFormed (.iota 24) = true ∧ Instr.wellFormed (.pad [] 0) = true := by decide

theorem witness_DecodedInstructionsAreWellFormed :
    decodeCommand initItem = .ok (.init 5 20 10) ∧
    decodeUop ⟨0, 0xFFFFFFFFFFFFFFFF, 64, .w64, []⟩ = .ok (.rotl 0xFFFFFFFFFFFFFFFF 64 .w64) := by decide

theorem witness_CommandPortDecodesByOperationCode :
    (0x0_FFFFFFFF_FFFFFFFF_FFFFFFFF#98).toNat / 2 ^ 96 = 0 ∧
    (0x1_00000000_00000000_00000000#98).toNat / 2 ^ 96 = 1 ∧
    (0x2_00000001_00000000_00000000#98).toNat / 2 ^ 96 = 2 ∧
    [0x61].length = (0x2_00000001_00000000_00000000#98).toNat / 2 ^ 64 % 2 ^ 32 ∧
    (0x3_00000000_FFFFFFFF_FFFFFFFF#98).toNat / 2 ^ 96 = 3 ∧
    ([] : List Nat).length = (0x3_00000000_FFFFFFFF_FFFFFFFF#98).toNat / 2 ^ 64 % 2 ^ 32 := by decide

theorem witness_NoCommandWordIsIllegal :
    initItem.payload.length = announcedLength initItem.word ∧
    [0x61].length = announcedLength (commandWord 2 1 0 0) := by decide

theorem witness_PayloadOfAnotherLengthIsRefused :
    badItem.payload.length ≠ announcedLength badItem.word := by decide

theorem witness_OperandsOutsideTheirRuleStillRun :
    2 ^ LaneWidth.w1.toNat ≤ (2#64).toNat ∧ 2 ^ LaneWidth.w32.toNat ≤ (0x100000000#64).toNat ∧
    (List.replicate 4 true).length ≠ fresh1.cfg.rate.toNat ∧
    (List.replicate 6 true).length ≠ fresh1.cfg.rate.toNat ∧ fresh1.cfg.nr.toNat ≤ 24 ∧
    3 < fresh1.cfg.rate.toNat ∧ 3 < (List.replicate 4 true).length := by decide

theorem witness_IgnoredOperandBitsHaveNoEffect :
    (∀ k, k < (0#3).toNat → (0x00#8).getLsbD k = (0xFF#8).getLsbD k) ∧
    (∀ k, k < (7#3).toNat → (0x7F#8).getLsbD k = (0xFF#8).getLsbD k) := by decide

theorem witness_TagsNameTheInternalOperations : 0xB ≤ (0xB#4).toNat ∧ 0xB ≤ (0xF#4).toNat := by
  decide

theorem witness_InitConfiguresOrRefuses : InitLegal 1 24 ∧ InitLegal 1600 0 ∧ ¬ InitLegal 0 25 ∧
    ¬ InitLegal 4294967295 1601 :=
  ⟨legal_bounds.1, legal_bounds.2.2.2.1, illegal_bounds.1, illegal_bounds.2.2.2.2⟩

theorem witness_InitDerivesOneOfSevenRows :
    (InitLegal 5 20 ∧ ∃ t, exec (.init 5 20 10) stateT8 = .next t) ∧
    (1 ∈ [1, 2, 4, 8, 16, 32, 64] ∧ 1 ≤ 1 ∧ 1 ≤ 25 * 1) ∧
    (64 ∈ [1, 2, 4, 8, 16, 32, 64] ∧ 1 ≤ 1600 ∧ 1600 ≤ 25 * 64) :=
  ⟨⟨legal_bounds.2.2.2.2, _, rfl⟩, by decide, by decide⟩

theorem witness_InitTwiceIsInitOnce : InitLegal 25 0 := legal_bounds.2.1

theorem witness_BlocksAreConsecutiveSlices :
    1 ≤ cfg1.rate.toNat ∧ 1 < (List.replicate 13 true).length / cfg1.rate.toNat ∧
    List.replicate 5 true ∈ cfg1.blocks (List.replicate 13 true) := by decide

theorem witness_AbsorbConsumesEveryCompleteBlock :
    (fresh1.phase = .configured ∧ fresh1.cfg.Valid) ∧
    (absorbing1.phase = .absorbing ∧ absorbing1.cfg.Valid) ∧
    State.reset.phase = .unconfigured ∧ finalized1.phase = .finalized :=
  ⟨⟨rfl, cfg1_valid⟩, ⟨rfl, cfg1_valid⟩, rfl, rfl⟩

theorem witness_FinalizeReturnsTheDigest :
    (fresh1.phase = .configured ∧ fresh1.cfg.Valid) ∧
    (absorbing1.phase = .absorbing ∧ absorbing1.cfg.Valid) ∧
    State.reset.phase = .unconfigured ∧ finalized1.phase = .finalized :=
  witness_AbsorbConsumesEveryCompleteBlock

/-- The last bit of the ten-bit digest is bit 1 of byte 1; bit 2 of byte 1 is the first unused one. -/
theorem witness_DigestBitsFillTheLowEnd :
    cfg1.Valid ∧ 1 < (bytes (cfg1.squeeze absorbing1.lanes)).length ∧
    8 * 1 + 1 < (cfg1.squeeze absorbing1.lanes).length ∧ cfg1.outsz.toNat ≤ 8 * 1 + 2 := by
  rw [bytes_length, ConfigRegs.squeeze_length cfg1_valid]
  exact ⟨cfg1_valid, by decide⟩

theorem witness_PhaseTransitionsAreTheTable : State.reset.Inv ∧ fresh1.Inv ∧ absorbing1.Inv ∧
    finalized1.Inv ∧ InitLegal 5 20 ∧ ¬ InitLegal 0 25 :=
  ⟨inv_reset, inv_fresh1, inv_absorbing1, inv_finalized1, legal_bounds.2.2.2.2, illegal_bounds.1⟩

theorem witness_ZeroRateStopsTheBlockLoops :
    zeroRate.cfg.rate.toNat = 0 ∧ zeroRate.phase = .configured ∧ zeroRate.cfg.outsz.toNat ≠ 0 ∧
    State.reset.cfg.rate.toNat = 0 ∧ State.reset.cfg.outsz.toNat = 0 := by decide

theorem witness_RotlMovesEachBit : (1#64).toNat < 2 ^ LaneWidth.w1.toNat ∧ 0 < LaneWidth.w1.toNat ∧
    (0xFFFFFFFFFFFFFFFF#64).toNat < 2 ^ LaneWidth.w64.toNat ∧ 63 < LaneWidth.w64.toNat := by decide

theorem witness_RotlObeysTheWordLaws : (0xFF#64).toNat < 2 ^ LaneWidth.w8.toNat ∧
    (0x81#64).toNat < 2 ^ LaneWidth.w8.toNat := by decide

theorem witness_Log2IsTheSevenEntryTable : 0 ≤ 6 ∧ 6 ≤ 6 ∧ (0#32).toNat ∉ [1, 2, 4, 8, 16, 32, 64] ∧
    (3#32).toNat ∉ [1, 2, 4, 8, 16, 32, 64] ∧ (128#32).toNat ∉ [1, 2, 4, 8, 16, 32, 64] := by decide

theorem witness_IotaXorsTheRoundConstant : (0 : Fin 24).val < fresh1.cfg.nr.toNat ∧
    (11 : Fin 24).val < fresh1.cfg.nr.toNat ∧ (23 : Fin 24).val < cfg64.nr.toNat := by decide

theorem witness_RoundIsItsFourSteps : (0#32).toNat < cfg64.nr.toNat ∧ (23#32).toNat < cfg64.nr.toNat ∧
    cfg64.nr.toNat ≤ 24 := by decide

theorem witness_RoundIndicesFromNrOnStillRun : fresh1.cfg.nr.toNat ≤ (12#32).toNat ∧
    fresh1.cfg.nr.toNat ≤ (23#32).toNat ∧ (23#32).toNat < 24 ∧ fresh1.cfg.nr.toNat ≤ (24#32).toNat := by
  decide

theorem witness_PermuteIsItsRounds : fresh1.cfg.nr.toNat ≤ 24 ∧ cfg64.nr.toNat ≤ 24 ∧
    24 < tooManyRounds.cfg.nr.toNat := by decide

theorem witness_PresetsExpandToTheTable : 224#32 ∈ [224#32, 256, 384, 512] ∧
    512#32 ∈ [224#32, 256, 384, 512] := by decide

theorem witness_PermutationKeepsLanesInWidth : cfg8.Valid ∧ Fits cfg8.w.toNat stateT8.lanes :=
  ⟨cfg8_valid, stateT8_fits⟩

theorem witness_ThetaAndRhopiAreLinear : Fits 8 stateT8.lanes ∧ Fits 8 (lanesOf fun _ => 0xFF) :=
  ⟨stateT8_fits, by unfold Fits; decide⟩

theorem witness_PadAppendsOneZerosOne : 1 ≤ (1#32).toNat ∧ 1 ≤ (0xFFFFFFFF#32).toNat := by decide

theorem witness_PadLengthLaws :
    1 ≤ 1 ∧ (5 ∣ 10 ∧ [true].length + 2 ≤ 10) ∧
    (1 < 2 ∧ 2 < (pad [true] 5).length - 1) ∧
    (([true, true, true] : Bits).length % 5 + 2 ≤ 5 ∧ ([true, true, true, true] : Bits).length % 5 = 5 - 1) ∧
    (([] : Bits).length % 2 = 0 ∧ [true].length % 2 = 1) := by decide

theorem witness_PadInBytesIsPadInBits : 1 ≤ 8 ∧ 8 % 8 = 0 ∧ 1 ≤ 1088 ∧ 1088 % 8 = 0 := by decide

/-- A block of 7 bits at `W = 2`: its last bit is bit 0 of lane 3, and bit 1 of lane 3 is the first that
it leaves. -/
theorem witness_BlockBitsMeetStateBits :
    1 ≤ 2 ∧ 2 ≤ 64 ∧ (List.replicate 7 true).length ≤ 25 * 2 ∧
    (0 < 2 ∧ 2 * 3 + 0 < (List.replicate 7 true).length) ∧ (List.replicate 7 true).length ≤ 2 * 3 + 1 ∧
    1 ≤ 64 ∧ (List.replicate 25 true).length ≤ 25 * 1 := by decide

theorem witness_ClassABlocksAreLittleEndianWords :
    8 ∈ [8, 16, 32, 64] ∧ 8 * (List.replicate 25 (0x61 : Byte)).length % 8 = 0 ∧
    8 * (List.replicate 25 (0x61 : Byte)).length ≤ 25 * 8 ∧
    (24 : Fin 25).val < 8 * (List.replicate 25 (0x61 : Byte)).length / 8 ∧
    64 ∈ [8, 16, 32, 64] ∧ 8 * (List.replicate 8 (0x61 : Byte)).length % 64 = 0 ∧
    (0 : Fin 25).val < 8 * (List.replicate 8 (0x61 : Byte)).length / 64 ∧
    8 * (List.replicate 8 (0x61 : Byte)).length / 64 ≤ (1 : Fin 25).val := by decide

theorem witness_ClassAExtractionIsLittleEndian :
    64 ∈ [8, 16, 32, 64] ∧ 1088 % 64 = 0 ∧ 1088 ≤ 25 * 64 ∧ (16 : Fin 25).val < 1088 / 64 ∧
    7 < 64 / 8 := by decide

theorem witness_AbsorbBlockXorsThenPermutes :
    (List.replicate 5 true).length = fresh1.cfg.rate.toNat ∧ fresh1.cfg.Valid := ⟨rfl, cfg1_valid⟩

theorem witness_SqueezeExtractsAndPermutes : fresh1.cfg.Valid := cfg1_valid

theorem witness_EveryStepKeepsTheInvariant :
    absorbing1.Inv ∧ ∃ t, step absorbing1 = .next t := ⟨inv_absorbing1, _, rfl⟩

theorem witness_StepFromTheInvariantIsSafe :
    State.Inv { fresh1 with port := [badItem] } ∧
    step { fresh1 with port := [badItem] } = .refused (.undecodable .payloadLength) :=
  ⟨⟨rfl, inv_fresh1.cfg, inv_fresh1.lanes, inv_fresh1.pend, inv_fresh1.fresh, inv_fresh1.finalized⟩, rfl⟩

theorem witness_ErrorsChangeNothing :
    exec (.absorb [0x61]) finalized1 = .next (raise .invalidState finalized1) ∧
    (raise .invalidState finalized1).responses = finalized1.responses ++ [⟨.invalidState, 0, []⟩] ∧
    Status.invalidState ≠ .ok := ⟨rfl, rfl, by decide⟩

theorem witness_OnlyInitWritesTheConfiguration : ∃ t, exec (.init 5 20 10) State.reset = .next t ∧
    t.cfg ≠ State.reset.cfg := ⟨_, rfl, by decide⟩

theorem witness_InternalOperationsLeaveControlState :
    Instr.isCommand .permute = false ∧ (∃ t, exec .permute fresh1 = .next t) ∧
    ∃ t, exec .permute tooManyRounds = .next t ∧ t.responses ≠ tooManyRounds.responses :=
  ⟨rfl, ⟨_, rfl⟩, _, rfl, by decide⟩

theorem witness_UnsupportedRoundCountIsUnreachable : 24 < tooManyRounds.cfg.nr.toNat ∧
    finalized1.Inv ∧ ∃ t, step finalized1 = .next t := ⟨by decide, inv_finalized1, _, rfl⟩

theorem witness_FinalizedInstanceIsOneShot : finalized1.phase = .finalized ∧
    ∀ i ∈ [Instr.absorb [0x61], Instr.finalize [] 0 0],
      (∃ d, i = .absorb d) ∨ ∃ d t v, i = .finalize d t v := by
  refine ⟨rfl, ?_⟩
  intro i hi
  simp only [List.mem_cons, List.not_mem_nil, or_false] at hi
  rcases hi with rfl | rfl
  · exact .inl ⟨_, rfl⟩
  · exact .inr ⟨_, _, _, rfl⟩

theorem witness_DigestDoesNotDependOnChunking : InitLegal 1 1599 := legal_bounds.2.2.1

theorem witness_DigestIsTheSpongeFunction : InitLegal 1 1599 := legal_bounds.2.2.1

theorem witness_AnswersDependOnlyOnCommandsSinceInit : InitLegal 5 20 ∧
    ∀ i ∈ [Instr.absorb [0x61], .idle, .finalize [] 2 2, .init 0 0 0], i.isCommand = true :=
  ⟨legal_bounds.2.2.2.2, by decide⟩

theorem witness_IterationChainsFreshInstances : InitLegal 1600 0 := legal_bounds.2.2.2.1

theorem witness_PermuteCountsPerCommand : absorbing1.cfg.Valid ∧ absorbing1.phase = .absorbing ∧
    ∃ t, exec (.init 5 20 10) absorbing1 = .next t := ⟨cfg1_valid, rfl, _, rfl⟩

theorem witness_HardwareResetUnconfigures :
    ({ absorbing1 with resetPin := .betweenCommands } : State).resetPin ≠ .low ∧
    ({ absorbing1 with resetPin := .duringCommand } : State).resetPin = .duringCommand ∧
    ({ absorbing1 with resetPin := .duringCommand } : State).latch = none ∧
    ({ absorbing1 with resetPin := .duringCommand, latch := some (plainUop 0x7) } : State).latch ≠ none ∧
    InitLegal 5 20 := ⟨nofun, rfl, rfl, nofun, legal_bounds.2.2.2.2⟩

end Sys2Proof.Tests
end

/-! The decoders return well-formed instructions (00_scope.md R7; 30_encoding.md R71, R73, R79). -/

namespace Sys2Proof

/-- The length of a payload travels in `p0` (R7, R71). -/
theorem announcedLength_lt (cw : BitVec 98) : announcedLength cw < 2 ^ 32 := by
  unfold announcedLength
  split
  · exact (p0Field cw).isLt
  · norm_num

theorem decodeCommand_eq_ok {c : CommandItem} {i : Instr} :
    decodeCommand c = .ok i ↔ c.payload.length = announcedLength c.word ∧ commandOf c = i := by
  unfold decodeCommand
  split <;> simp [*]

theorem commandOf_wellFormed {c : CommandItem} (h : c.payload.length < 2 ^ 32) :
    (commandOf c).wellFormed = true := by
  unfold commandOf
  split_ifs
  · rfl
  · rfl
  · exact decide_eq_true h
  · exact decide_eq_true h

theorem decodeUop_isCommand {u : UopItem} {i : Instr} (h : decodeUop u = .ok i) :
    i.isCommand = false := by
  unfold decodeUop at h
  split at h <;> cases h <;> rfl

/-- Only the payload of a port command has a bound to keep. -/
theorem wellFormed_of_not_isCommand {i : Instr} (h : i.isCommand = false) : i.wellFormed = true := by
  cases i with
  | absorb | finalize => cases h
  | _ => rfl

/-- Settles O3: a decoded payload has the announced length, which fits `p0`, and no internal operation
has a payload. -/
theorem decodedInstructionsAreWellFormed : Obligations.DecodedInstructionsAreWellFormed := by
  unfold Obligations.DecodedInstructionsAreWellFormed
  constructor
  · intro c i h
    obtain ⟨hlen, rfl⟩ := decodeCommand_eq_ok.mp h
    exact commandOf_wellFormed (hlen ▸ announcedLength_lt c.word)
  · exact fun u i h => wellFormed_of_not_isCommand (decodeUop_isCommand h)

end Sys2Proof

/-! What a successful INIT does, and the seven rows of R5 (00_scope.md R5, R9; 43_sponge.md R130). -/

namespace Sys2Proof.Machine

theorem log2_two_pow {l : Nat} (h : l ≤ 6) : log2 (2 ^ l) = some l := by
  interval_cases l <;> rfl

theorem exists_log_of_mem_widths : ∀ w ∈ [1, 2, 4, 8, 16, 32, 64], ∃ l ≤ 6, w = 2 ^ l := by decide

/-- The legal operands by the logarithm of the lane width: the form `execInit` tests. -/
theorem initLegal_iff_exists_log (r c : BitVec 32) :
    InitLegal r c ↔ r ≠ 0#32 ∧ ∃ l ≤ 6, r.toNat + c.toNat = 25 * 2 ^ l := by
  rw [initLegal_iff]
  constructor
  · rintro ⟨hmod, ⟨l, hl⟩, hr⟩
    obtain ⟨hw, hl6⟩ := log2_some hl
    exact ⟨hr, l, hl6, by omega⟩
  · rintro ⟨hr, l, hl6, hs⟩
    rw [hs, Nat.mul_div_cancel_left _ (by norm_num)]
    exact ⟨Nat.mul_mod_right 25 _, ⟨l, log2_two_pow hl6⟩, hr⟩

/-- INIT on legal operands passes the four checks of R130. -/
theorem exec_init_of_log {r c : BitVec 32} {l : Nat} (n : BitVec 32) (s : State) (hr : r ≠ 0#32)
    (hl : l ≤ 6) (hs : r.toNat + c.toNat = 25 * 2 ^ l) :
    exec (.init r c n) s = .next (respond .ok [] (establish (initConfig r c n l) s)) := by
  have hguard : ¬ 24 < 12 + 2 * l := by omega
  change execInit r c n s = _
  simp [execInit, hs, log2_two_pow hl, hr, hguard, Config.acceptClassB]

/-- The seven rows of R5. -/
theorem ConfigRegs.Valid.row {c : ConfigRegs} (h : c.Valid) :
    (c.w.toNat, c.stsz.toNat, c.l.toNat, c.nr.toNat, c.wmask.toNat) ∈
      [(1, 25, 0, 12, 0x1), (2, 50, 1, 14, 0x3), (4, 100, 2, 16, 0xF), (8, 200, 3, 18, 0xFF),
        (16, 400, 4, 20, 0xFFFF), (32, 800, 5, 22, 0xFFFFFFFF),
        (64, 1600, 6, 24, 0xFFFFFFFFFFFFFFFF)] := by
  rw [h.wmask, mask_toNat h.w_le, h.width, h.rounds, h.log]
  have hl := h.log_le
  interval_cases c.l.toNat <;> decide

/-- INIT with the rate `r` and what is left of the `25 * 2 ^ l` bits of the state. -/
theorem exec_init_of_rate {l r : Nat} (n : BitVec 32) (s : State) (hl : l ≤ 6) (hr : 1 ≤ r)
    (hrs : r ≤ 25 * 2 ^ l) : ∃ t : State,
      exec (.init (BitVec.ofNat 32 r) (BitVec.ofNat 32 (25 * 2 ^ l - r)) n) s = .next t ∧
      t.phase = .configured ∧ t.cfg.w.toNat = 2 ^ l ∧ t.cfg.rate.toNat = r ∧ t.cfg.outsz = n := by
  have hpow : 2 ^ l ≤ 2 ^ 6 := Nat.pow_le_pow_right (by norm_num) hl
  have hrate : (BitVec.ofNat 32 r).toNat = r := Nat.mod_eq_of_lt (by omega)
  have hcap : (BitVec.ofNat 32 (25 * 2 ^ l - r)).toNat = 25 * 2 ^ l - r := Nat.mod_eq_of_lt (by omega)
  have hsum : (BitVec.ofNat 32 r).toNat + (BitVec.ofNat 32 (25 * 2 ^ l - r)).toNat = 25 * 2 ^ l := by
    omega
  have hne : BitVec.ofNat 32 r ≠ 0#32 := fun h => by simp [h] at hrate; omega
  obtain ⟨hrate', -, houtsz, -, hw, -⟩ := initConfig_fields _ _ n l hl hsum
  exact ⟨_, exec_init_of_log n s hne hl hsum, rfl, hw, hrate'.trans hrate, houtsz⟩

/-- Settles O13: the registers of a successful INIT are `Valid`, and every row has its rates accepted. -/
theorem initDerivesOneOfSevenRows : Obligations.InitDerivesOneOfSevenRows := by
  unfold Obligations.InitDerivesOneOfSevenRows
  constructor
  · intro r c n s t hlegal ht
    obtain ⟨hr, l, hl, hs⟩ := (initLegal_iff_exists_log r c).mp hlegal
    rw [exec_init_of_log n s hr hl hs] at ht
    cases ht
    have hvalid := initConfig_valid r c n l hl hs hr
    have hsum := hvalid.sum
    exact ⟨hvalid.row, hvalid.rate_pos, Nat.le.intro hsum, Nat.eq_sub_of_add_eq' hsum⟩
  · intro w r n s hw hr hrs
    obtain ⟨l, hl, rfl⟩ := exists_log_of_mem_widths w hw
    exact exec_init_of_rate n s hl hr hrs

/-- While `2n` stays below 1600 the subtraction of a preset does not wrap (R9). -/
theorem preset_sum {n : BitVec 32} (hn : n.toNat < 800) :
    1600#32 - 2#32 * n ≠ 0#32 ∧ (1600#32 - 2#32 * n).toNat + (2#32 * n).toNat = 25 * 2 ^ 6 := by
  constructor <;> bv_omega

/-- Settles O58: the rate and the capacity of a preset add up to the state size of lane width `2 ^ 6`. -/
theorem presetsExpandToTheTable : Obligations.PresetsExpandToTheTable := by
  unfold Obligations.PresetsExpandToTheTable
  have hsmall : ∀ n ∈ [224#32, 256, 384, 512], n.toNat < 800 := by simp
  refine ⟨rfl, rfl, rfl, rfl, fun n hn => ?_⟩
  obtain ⟨hrate, hsum⟩ := preset_sum (hsmall n hn)
  have hlegal := (initLegal_iff_exists_log _ _).mpr ⟨hrate, 6, le_rfl, hsum⟩
  exact ⟨hlegal, hsum, rfl⟩

end Sys2Proof.Machine

/-! Every step of the round keeps the lanes words of `W` bits (10_state.md R14; 40_primitives.md R93), and so
do the operations that are built from it. -/

namespace Sys2Proof.Machine

theorem fits_lanesOf {w : Nat} {f : Fin 25 → Word} (h : ∀ i, (f i).toNat < 2 ^ w) : Fits w (lanesOf f) :=
  fun i => by simpa using h i

theorem fits_zero (w : Nat) : Fits w (lanesOf fun _ => 0) :=
  fits_lanesOf fun _ => Nat.two_pow_pos w

section
variable {w : Nat} {a : Lanes} (ha : Fits w a)
include ha

theorem parity_lt (x : Fin 5) : (parity a x).toNat < 2 ^ w :=
  xor_lt (xor_lt (xor_lt (xor_lt (ha _) (ha _)) (ha _)) (ha _)) (ha _)

theorem theta_fits : Fits w (theta w a) := by
  refine fits_lanesOf fun i => xor_lt (ha i) ?_
  simpa [thetaD, thetaC] using xor_lt (parity_lt ha _) (rotl_lt _ _ _)

theorem chi_fits (wmask : Word) : Fits w (chi wmask a) :=
  fits_lanesOf fun i => xor_lt (ha i) (and_lt (ha _))

theorem iota_fits (k : Word) : Fits w (iota (mask w) k a) := by
  refine fits_lanesOf fun i => ?_
  split
  · exact xor_lt (ha i) (and_lt mask_lt)
  · exact ha i

theorem xorBlock_fits (p : Bits) : Fits w (xorBlock w p a) := by
  refine fits_lanesOf fun i => xor_lt (ha i) ?_
  calc (wordOfBits ((p.drop (w * i.val)).take w)).toNat
      ≤ natOfBits ((p.drop (w * i.val)).take w) := Nat.mod_le _ _
    _ < 2 ^ ((p.drop (w * i.val)).take w).length := natOfBits_lt _
    _ ≤ 2 ^ w := Nat.pow_le_pow_right (by norm_num) (List.length_take_le _ _)

end

/-- ROTL masks its result (R90), whatever the lanes were. -/
theorem rhopi_fits (w : Nat) (a : Lanes) : Fits w (rhopi w a) :=
  fits_lanesOf fun _ => rotl_lt _ _ _

theorem round_fits (w : Nat) (k : Word) (a : Lanes) : Fits w (round w (mask w) k a) :=
  iota_fits (chi_fits (rhopi_fits w _) _) k

theorem keccakF_fits {w : Nat} (nr : Nat) {a : Lanes} (ha : Fits w a) : Fits w (keccakF w (mask w) nr a) :=
  List.foldlRecOn _ _ ha fun b _ k _ => round_fits w k b

section
variable {c : ConfigRegs} (hc : c.Valid)
include hc

theorem ConfigRegs.Valid.keccak_fits {a : Lanes} (ha : Fits c.w.toNat a) : Fits c.w.toNat (c.keccak a) := by
  rw [ConfigRegs.keccak, hc.wmask]
  exact keccakF_fits _ ha

theorem ConfigRegs.Valid.absorb_fits (ps : List Bits) {a : Lanes} (ha : Fits c.w.toNat a) :
    Fits c.w.toNat (c.absorb ps a) :=
  List.foldlRecOn _ _ ha fun _ hb p _ => hc.keccak_fits (xorBlock_fits hb p)

theorem ConfigRegs.Valid.squeezed_fits {a : Lanes} (ha : Fits c.w.toNat a) : Fits c.w.toNat (c.squeezed a) :=
  Function.Iterate.rec (Fits c.w.toNat) ha (fun _ hb => hc.keccak_fits hb) _

end

/-- Settles O31, one lemma per step of the round. -/
theorem permutationKeepsLanesInWidth : Obligations.PermutationKeepsLanesInWidth := by
  unfold Obligations.PermutationKeepsLanesInWidth
  intro c k a hc ha
  refine ⟨theta_fits ha, rhopi_fits _ a, chi_fits ha _, ?_, hc.keccak_fits ha⟩
  rw [hc.wmask]
  exact iota_fits ha k

end Sys2Proof.Machine

/-! What each instruction can do: the next states it can give, each as an update of the state it started
in. -/

namespace Sys2Proof.Machine

/-- What SQUEEZE makes of the lanes does not depend on the scratch arrays (R29, R137). -/
theorem SameButScratch.squeezed {s t : State} (h : SameButScratch s t) :
    SameButScratch { s with lanes := s.cfg.squeezed s.lanes }
      { t with lanes := t.cfg.squeezed t.lanes } := by
  obtain ⟨hcfg, hlanes, hrest⟩ := SameButScratch.iff.mp h
  exact SameButScratch.iff.mpr ⟨hcfg, by rw [hcfg, hlanes], hrest⟩

theorem absorbBlocks_eq_ok {ps : List Bits} {s t : State} (h : absorbBlocks ps s = .ok t) :
    SameButScratch { s with lanes := s.cfg.absorb ps s.lanes } t := by
  rcases le_or_gt s.cfg.nr.toNat 24 with hnr | hnr
  · obtain ⟨u, hu, hsame, -⟩ := absorbBlocks_spec ps s hnr
    cases hu.symm.trans h
    exact hsame
  · cases ps with
    | nil => cases h; rfl
    | cons p ps => cases (absorbBlocks_error p ps s hnr).symm.trans h

theorem absorbBlocks_eq_error {ps : List Bits} {s : State} {e : Status}
    (h : absorbBlocks ps s = .error e) : 24 < s.cfg.nr.toNat ∧ e = .unsupportedRoundCount := by
  obtain ⟨u, hu, -⟩ | ⟨hnr, he⟩ := absorbBlocks_cases ps s
  · cases hu.symm.trans h
  · cases he.symm.trans h
    exact ⟨hnr, rfl⟩

/-- Where the guard of PERMUTE fires, SQUEEZE completes only without a PERMUTE. -/
theorem squeeze_eq_ok {s t : State} {z : Bits} (h : squeeze s = .ok (z, t)) :
    z = s.cfg.squeeze s.lanes ∧ SameButScratch { s with lanes := s.cfg.squeezed s.lanes } t := by
  rcases le_or_gt s.cfg.nr.toNat 24 with hnr | hnr
  · obtain ⟨u, hu, hsame, -⟩ := squeeze_spec s hnr
    cases hu.symm.trans h
    exact ⟨rfl, hsame⟩
  · have hk : extractions s = s.cfg.extractions := rfl
    unfold squeeze at h
    match hn : extractions s with
    | 0 | 1 =>
      simp only [hn, squeezeMore] at h
      cases h
      simp [SameButScratch, ConfigRegs.squeeze, ConfigRegs.squeezed, extract, ← hk, hn]
    | n + 2 =>
      simp only [hn, squeezeMore, permute_of_gt s hnr] at h
      cases h

theorem squeeze_eq_error {s : State} {e : Status} (h : squeeze s = .error e) :
    24 < s.cfg.nr.toNat ∧ e = .unsupportedRoundCount := by
  obtain ⟨z, u, hu, -⟩ | ⟨hnr, he⟩ := squeeze_cases s
  · cases hu.symm.trans h
  · cases he.symm.trans h
    exact ⟨hnr, rfl⟩

/-- INIT on illegal operands is answered `InvalidParameters` (R130, R161). -/
theorem exec_init_of_not_legal {r c : BitVec 32} (n : BitVec 32) (s : State) (h : ¬ InitLegal r c) :
    exec (.init r c n) s = .next (raise .invalidParameters s) := by
  change execInit r c n s = _
  unfold execInit
  by_cases hmod : (r.toNat + c.toNat) % 25 = 0
  · cases hlog : log2 ((r.toNat + c.toNat) / 25) with
    | none => simp [hmod]
    | some l =>
      have hr : r = 0#32 := by
        by_contra hr
        exact h ((initLegal_iff r c).mpr ⟨hmod, ⟨l, hlog⟩, hr⟩)
      simp [hr]
  · simp [hmod]

theorem exec_init_cases {r c n : BitVec 32} {s t : State} (h : exec (.init r c n) s = .next t) :
    (InitLegal r c ∧ ∃ cfg : ConfigRegs, cfg.Valid ∧ t = respond .ok [] (establish cfg s)) ∨
    (¬ InitLegal r c ∧ t = raise .invalidParameters s) := by
  by_cases hlegal : InitLegal r c
  · obtain ⟨hr, l, hl, hsum⟩ := (initLegal_iff_exists_log r c).mp hlegal
    cases (exec_init_of_log n s hr hl hsum).symm.trans h
    exact .inl ⟨hlegal, _, initConfig_valid r c n l hl hsum hr, rfl⟩
  · cases (exec_init_of_not_legal n s hlegal).symm.trans h
    exact .inr ⟨hlegal, rfl⟩

/-- ABSORB is refused for its phase, or meets PERMUTE's guard, or absorbs (R131, R162, R163). -/
theorem exec_absorb_cases {d : List Byte} {s t : State} (h : exec (.absorb d) s = .next t) :
    (s.phase.accepting = false ∧ t = raise .invalidState s) ∨
    (24 < s.cfg.nr.toNat ∧ t = raise .unsupportedRoundCount s) ∨
    ∃ u, s.phase.accepting = true ∧ s.cfg.rate ≠ 0#11 ∧
      SameButScratch
        { s with lanes := s.cfg.absorb (s.cfg.blocks (s.pend ++ bits d)) s.lanes } u ∧
      t = respond .ok [] { u with
        pend := (s.pend ++ bits d).drop
          ((s.pend ++ bits d).length / s.cfg.rate.toNat * s.cfg.rate.toNat)
        phase := .absorbing } := by
  change execAbsorb d s = _ at h
  unfold execAbsorb at h
  split_ifs at h with hphase hrate
  · cases h
    exact .inl ⟨by simpa using hphase, rfl⟩
  · dsimp only at h
    rw [← blocks_eq_chunks] at h
    cases hblocks : absorbBlocks (s.cfg.blocks (s.pend ++ bits d)) s with
    | error e =>
      obtain ⟨hnr, rfl⟩ := absorbBlocks_eq_error hblocks
      rw [hblocks] at h
      cases h
      exact .inr (.inl ⟨hnr, rfl⟩)
    | ok u =>
      rw [hblocks] at h
      cases h
      exact .inr (.inr ⟨u, by simpa using hphase, hrate, absorbBlocks_eq_ok hblocks, rfl⟩)

/-- FINALIZE is refused for its phase, or meets PERMUTE's guard, or absorbs and squeezes (R136, R162,
R163). -/
theorem exec_finalize_cases {d : List Byte} {k : BitVec 3} {v : Byte} {s t : State}
    (h : exec (.finalize d k v) s = .next t) :
    (s.phase.accepting = false ∧ t = raise .invalidState s) ∨
    (24 < s.cfg.nr.toNat ∧ t = raise .unsupportedRoundCount s) ∨
    ∃ u a, s.phase.accepting = true ∧ s.cfg.rate ≠ 0#11 ∧
      a = s.cfg.absorb (s.cfg.blocks (pad (s.pend ++ bits d ++ tailBits k v) s.cfg.rate.toNat)) s.lanes ∧
      SameButScratch { s with lanes := s.cfg.squeezed a } u ∧
      t = respond .ok (bytes (s.cfg.squeeze a)) { u with pend := [], phase := .finalized } := by
  change execFinalize d k v s = _ at h
  unfold execFinalize at h
  split_ifs at h with hphase hrate
  · cases h
    exact .inl ⟨by simpa using hphase, rfl⟩
  · dsimp only at h
    rw [← blocks_eq_chunks] at h
    cases hblocks : absorbBlocks
        (s.cfg.blocks (pad (s.pend ++ bits d ++ tailBits k v) s.cfg.rate.toNat)) s with
    | error e =>
      obtain ⟨hnr, rfl⟩ := absorbBlocks_eq_error hblocks
      rw [hblocks] at h
      cases h
      exact .inr (.inl ⟨hnr, rfl⟩)
    | ok u =>
      have hu := absorbBlocks_eq_ok hblocks
      obtain ⟨hcfg, hlanes, -⟩ := SameButScratch.iff.mp hu
      cases hsqueeze : squeeze u with
      | error e =>
        obtain ⟨hnr, rfl⟩ := squeeze_eq_error hsqueeze
        simp only [hblocks, Except.bind, hsqueeze] at h
        cases h
        exact .inr (.inl ⟨hcfg ▸ hnr, rfl⟩)
      | ok zs =>
        obtain ⟨z, u'⟩ := zs
        simp only [hblocks, Except.bind, hsqueeze] at h
        cases h
        obtain ⟨rfl, hu'⟩ := squeeze_eq_ok hsqueeze
        exact .inr (.inr ⟨u', _, by simpa using hphase, hrate, rfl, hu.squeezed.trans hu', by
          rw [hcfg, hlanes]⟩)

/-- `t` is `s` but for the lanes, the scratch arrays, the returned value and the counter of free values:
all that an internal operation can change (R21, R78, R100). -/
def SameControl (s t : State) : Prop :=
  { s with lanes := t.lanes, scratch := t.scratch, result := t.result, draws := t.draws } = t

theorem SameControl.iff {s t : State} : SameControl s t ↔
    t.cfg = s.cfg ∧ t.pend = s.pend ∧ t.phase = s.phase ∧ t.port = s.port ∧ t.latch = s.latch ∧
    t.resetPin = s.resetPin ∧ t.responses = s.responses := by
  cases s; cases t; simp [SameControl]; grind

theorem SameButLanes.sameControl {s t : State} (h : SameButLanes s t) : SameControl s t := by
  obtain ⟨hcfg, hpend, hphase, hport, hresponses, hlatch, -, hpin⟩ := SameButLanes.iff.mp h
  exact SameControl.iff.mpr ⟨hcfg, hpend, hphase, hport, hlatch, hpin, hresponses⟩

/-- Ending an operation on its state or on PERMUTE's guard (R109, R164). -/
theorem settle_cases {s t : State} {x : Except Status State}
    (hx : (∃ u, x = .ok u ∧ SameControl s u) ∨
      (24 < s.cfg.nr.toNat ∧ x = .error .unsupportedRoundCount))
    (h : settle s x = .next t) :
    SameControl s t ∨ (24 < s.cfg.nr.toNat ∧ t = raise .unsupportedRoundCount s) := by
  obtain ⟨u, rfl, hu⟩ | ⟨hnr, rfl⟩ := hx
  · cases h
    exact .inl hu
  · cases h
    exact .inr ⟨hnr, rfl⟩

/-- The guard of PERMUTE is the only exception of an internal operation (R109, R163). -/
theorem exec_internal_cases {i : Instr} {s t : State} (hi : i.isCommand = false)
    (h : exec i s = .next t) :
    SameControl s t ∨ (24 < s.cfg.nr.toNat ∧ t = raise .unsupportedRoundCount s) := by
  cases i with
  | idle | init | absorb | finalize => cases hi
  | theta | rhopi | chi | iota | round => cases h; exact .inl rfl
  | rotl x n w =>
    change execRotl x n w s = _ at h
    unfold execRotl at h
    split at h <;> cases h <;> exact .inl rfl
  | log2 w =>
    change execLog2 w s = _ at h
    unfold execLog2 at h
    split at h <;> cases h
    exact .inl rfl
  | pad m r =>
    change execPad m r s = _ at h
    unfold execPad at h
    split at h <;> cases h <;> exact .inl rfl
  | permute =>
    exact settle_cases ((permute_cases s).imp_left
      fun ⟨_, u, hu, hsame⟩ => ⟨u, hu, hsame.sameControl⟩) h
  | absorbBlock p =>
    exact settle_cases ((absorbBlock_cases (blockOf s.cfg.rate.toNat s.draws p) s).imp_left
      fun ⟨_, u, hu, hsame⟩ => ⟨u, hu, hsame.sameControl⟩) h
  | squeeze =>
    change execSqueeze s = _ at h
    unfold execSqueeze at h
    split_ifs at h
    refine settle_cases ?_ h
    obtain ⟨z, u, hu, hsame⟩ | ⟨hnr, he⟩ := squeeze_cases s
    · have hcontrol := SameControl.iff.mp hsame.sameControl
      exact .inl ⟨{ u with result := some (.bits z) }, by rw [hu]; rfl, SameControl.iff.mpr hcontrol⟩
    · exact .inr ⟨hnr, by rw [he]; rfl⟩

/-- Settles O47: the frame of an internal operation, field by field. -/
theorem internalOperationsLeaveControlState : Obligations.InternalOperationsLeaveControlState := by
  unfold Obligations.InternalOperationsLeaveControlState
  intro i s t hi h
  obtain hsame | ⟨hnr, rfl⟩ := exec_internal_cases hi h
  · obtain ⟨hcfg, hpend, hphase, hport, hlatch, hpin, hresponses⟩ := SameControl.iff.mp hsame
    exact ⟨hcfg, hpend, hphase, hport, hlatch, hpin, .inl hresponses⟩
  · exact ⟨rfl, rfl, rfl, rfl, rfl, rfl, .inr ⟨hnr, rfl⟩⟩

/-- Settles O46: an answer with an error status, the block loops and every internal operation leave the
registers, so that what changes them is INIT on legal operands. -/
theorem onlyInitWritesTheConfiguration : Obligations.OnlyInitWritesTheConfiguration := by
  unfold Obligations.OnlyInitWritesTheConfiguration
  intro i s t h hne
  cases i with
  | idle => cases h; exact absurd rfl hne
  | init r c n =>
    obtain ⟨hlegal, cfg, -, rfl⟩ | ⟨-, rfl⟩ := exec_init_cases h
    · exact ⟨r, c, n, rfl, hlegal, rfl⟩
    · exact absurd rfl hne
  | absorb d =>
    obtain ⟨-, rfl⟩ | ⟨-, rfl⟩ | ⟨u, -, -, hu, rfl⟩ := exec_absorb_cases h
    · exact absurd rfl hne
    · exact absurd rfl hne
    · exact absurd (SameButScratch.iff.mp hu).1 hne
  | finalize d k v =>
    obtain ⟨-, rfl⟩ | ⟨-, rfl⟩ | ⟨u, a, -, -, -, hu, rfl⟩ := exec_finalize_cases h
    · exact absurd rfl hne
    · exact absurd rfl hne
    · exact absurd (SameButScratch.iff.mp hu).1 hne
  | _ =>
    obtain hsame | ⟨-, rfl⟩ := exec_internal_cases rfl h
    · exact absurd (SameControl.iff.mp hsame).1 hne
    · exact absurd rfl hne

end Sys2Proof.Machine

/-! The invariant between commands (10_state.md R11, R14, R22, R25; 30_encoding.md R78). -/

namespace Sys2Proof.Machine

/-- In `Unconfigured` the invariant asks for the empty latch only (R32). -/
theorem inv_of_unconfigured {s : State} (hlatch : s.latch = none) (hphase : s.phase = .unconfigured) :
    s.Inv where
  no_latch := hlatch
  cfg h := absurd hphase h
  lanes h := absurd hphase h
  pend h := by simp [hphase, Phase.accepting] at h
  fresh h := by simp [hphase] at h
  finalized h := by simp [hphase] at h

theorem inv_establish {c : ConfigRegs} {s : State} (hlatch : s.latch = none) (hc : c.Valid) :
    (establish c s).Inv where
  no_latch := hlatch
  cfg _ := hc
  lanes _ := fits_zero _
  pend _ := hc.rate_pos
  fresh _ := ⟨rfl, fun i => by simp⟩
  finalized h := nomatch h

section
variable {s : State} (hs : s.Inv)
include hs

theorem State.Inv.respond (st : Status) (d : List Byte) : (respond st d s).Inv :=
  ⟨hs.no_latch, hs.cfg, hs.lanes, hs.pend, hs.fresh, hs.finalized⟩

theorem State.Inv.with_port (port : List CommandItem) : State.Inv { s with port := port } :=
  ⟨hs.no_latch, hs.cfg, hs.lanes, hs.pend, hs.fresh, hs.finalized⟩

theorem State.Inv.configured_of_accepting (h : s.phase.accepting = true) :
    s.cfg.Valid ∧ Fits s.cfg.w.toNat s.lanes := by
  have hphase : s.phase ≠ .unconfigured := fun hu => by simp [hu, Phase.accepting] at h
  exact ⟨hs.cfg hphase, hs.lanes hphase⟩

/-- The remainder behind the complete blocks is shorter than a block (R131). -/
theorem exec_absorb_keeps_inv {d : List Byte} {t : State} (h : exec (.absorb d) s = .next t) : t.Inv := by
  obtain ⟨-, rfl⟩ | ⟨-, rfl⟩ | ⟨u, hacc, -, hu, rfl⟩ := exec_absorb_cases h
  · exact hs.respond _ _
  · exact hs.respond _ _
  obtain ⟨hc, ha⟩ := hs.configured_of_accepting hacc
  obtain ⟨hcfg, hlanes, -, -, -, -, hlatch, -⟩ := SameButScratch.iff.mp hu
  have hfits : Fits u.cfg.w.toNat u.lanes := by
    rw [hcfg, hlanes]
    exact hc.absorb_fits _ ha
  have hrest (n : Nat) : n - n / s.cfg.rate.toNat * s.cfg.rate.toNat < s.cfg.rate.toNat := by
    rw [← Nat.mod_eq_sub_div_mul]
    exact Nat.mod_lt _ hc.rate_pos
  exact {
    no_latch := hlatch.trans hs.no_latch
    cfg := fun _ => hcfg ▸ hc
    lanes := fun _ => hfits
    pend := fun _ => by simpa only [respond_pend, respond_cfg, List.length_drop, hcfg] using hrest _
    fresh := nofun
    finalized := nofun }

theorem exec_finalize_keeps_inv {d : List Byte} {k : BitVec 3} {v : Byte} {t : State}
    (h : exec (.finalize d k v) s = .next t) : t.Inv := by
  obtain ⟨-, rfl⟩ | ⟨-, rfl⟩ | ⟨u, _, hacc, -, rfl, hu, rfl⟩ := exec_finalize_cases h
  · exact hs.respond _ _
  · exact hs.respond _ _
  obtain ⟨hc, ha⟩ := hs.configured_of_accepting hacc
  obtain ⟨hcfg, hlanes, -, -, -, -, hlatch, -⟩ := SameButScratch.iff.mp hu
  have hfits : Fits u.cfg.w.toNat u.lanes := by
    rw [hcfg, hlanes]
    exact hc.squeezed_fits (hc.absorb_fits _ ha)
  exact {
    no_latch := hlatch.trans hs.no_latch
    cfg := fun _ => hcfg ▸ hc
    lanes := fun _ => hfits
    pend := nofun
    fresh := nofun
    finalized := fun _ => rfl }

theorem exec_command_keeps_inv {i : Instr} {t : State} (hi : i.isCommand = true)
    (h : exec i s = .next t) : t.Inv := by
  cases i with
  | idle => cases h; exact hs
  | init r c n =>
    obtain ⟨-, cfg, hc, rfl⟩ | ⟨-, rfl⟩ := exec_init_cases h
    · exact (inv_establish hs.no_latch hc).respond _ _
    · exact hs.respond _ _
  | absorb d => exact exec_absorb_keeps_inv hs h
  | finalize d k v => exact exec_finalize_keeps_inv hs h
  | _ => cases hi

end

theorem fetch_cases {s s' : State} {i : Instr} (hlatch : s.latch = none) (h : fetch s = .ok (i, s')) :
    (s.port = [] ∧ i = .idle ∧ s' = s) ∨
    ∃ c rest, s.port = c :: rest ∧ i = commandOf c ∧ s' = { s with port := rest } := by
  unfold fetch at h
  split at h
  next u hu => cases hlatch.symm.trans hu
  next =>
    split at h
    next hport =>
      cases h
      exact .inl ⟨hport, rfl, rfl⟩
    next c rest hport =>
      cases hdecode : decodeCommand c with
      | error e =>
        rw [hdecode] at h
        cases h
      | ok i =>
        rw [hdecode] at h
        cases h
        exact .inr ⟨c, rest, hport, (decodeCommand_eq_ok.mp hdecode).2.symm, rfl⟩

/-- A step with nothing in the latch is a hardware reset, or IDLE on an empty port, or the oldest command
of the port (R53, R76, R180). -/
theorem step_cases {s t : State} (hlatch : s.latch = none) (h : step s = .next t) :
    t = hardwareReset s ∨ t = hardwareReset (abandonCommand s) ∨ (s.port = [] ∧ t = s) ∨
    ∃ c rest, s.port = c :: rest ∧ exec (commandOf c) { s with port := rest } = .next t := by
  unfold step at h
  split at h
  next => cases h; exact .inl rfl
  next => cases h; exact .inr (.inl rfl)
  next =>
    split at h
    next i s' hfetch =>
      obtain ⟨hport, rfl, rfl⟩ | ⟨c, rest, hport, rfl, rfl⟩ := fetch_cases hlatch hfetch
      · cases h
        exact .inr (.inr (.inl ⟨hport, rfl⟩))
      · exact .inr (.inr (.inr ⟨c, rest, hport, h⟩))
    next => cases h

/-- Settles O43: a reset leaves `Unconfigured`, and each command of the port keeps the invariant. -/
theorem everyStepKeepsTheInvariant : Obligations.EveryStepKeepsTheInvariant := by
  unfold Obligations.EveryStepKeepsTheInvariant
  intro s t hs h
  obtain rfl | rfl | ⟨-, rfl⟩ | ⟨c, rest, -, hexec⟩ := step_cases hs.no_latch h
  · exact inv_of_unconfigured hs.no_latch rfl
  · exact inv_of_unconfigured (abandonCommand_latch s) rfl
  · exact hs
  · exact exec_command_keeps_inv (hs.with_port rest) (commandOf_isCommand c) hexec

/-- Settles O42: after reset nothing waits in the latch and `PHASE` is `Unconfigured`. -/
theorem resetMeetsTheInvariant : Obligations.ResetMeetsTheInvariant :=
  inv_of_unconfigured rfl rfl

/-- Settles O56: the values R32 fixes. -/
theorem resetIsUnconfigured : Obligations.ResetIsUnconfigured := ⟨rfl, rfl, rfl⟩

/-- Settles O57: the tables of R24 and R28. -/
theorem phaseAndStatusCodes : Obligations.PhaseAndStatusCodes :=
  ⟨⟨rfl, rfl, rfl, rfl⟩, rfl, rfl, rfl, rfl⟩

end Sys2Proof.Machine

/-! INIT is idempotent (20_memory.md R51). -/

namespace Sys2Proof.Machine

/-- INIT writes registers that its operands alone determine, and reads nothing of the state (R130): a
second one finds nothing to change. -/
theorem establish_respond_establish (cfg : ConfigRegs) (st : Status) (d : List Byte) (s : State) :
    establish cfg (respond st d (establish cfg s)) = respond st d (establish cfg s) := rfl

/-- Settles O14: both runs write the same registers, and the second changes nothing but the responses. -/
theorem initTwiceIsInitOnce : Obligations.InitTwiceIsInitOnce := by
  unfold Obligations.InitTwiceIsInitOnce
  intro r c n s hlegal
  obtain ⟨hr, l, hl, hsum⟩ := (initLegal_iff_exists_log r c).mp hlegal
  refine ⟨_, _, exec_init_of_log n s hr hl hsum, exec_init_of_log n _ hr hl hsum, ?_⟩
  rw [establish_respond_establish]
  rfl

end Sys2Proof.Machine

/-! The bits of the digest's bytes, of the state and of a block (20_memory.md R43 to R47; 43_sponge.md R138). -/

namespace Sys2Proof.Machine

/-- Settles O18: `bytes` reads 0 where the string has no bit, and the squeezed string has `OUTSZ` bits. -/
theorem digestBitsFillTheLowEnd : Obligations.DigestBitsFillTheLowEnd := by
  unfold Obligations.DigestBitsFillTheLowEnd
  intro c a hc
  have hlen := ConfigRegs.squeeze_length hc a
  refine ⟨hlen, by rw [bytes_length, hlen], fun k u hk hu => ?_⟩
  rw [bytes_getElem _ k u hk hu]
  constructor
  · intro h
    exact (List.getElem_eq_getD false).symm
  · intro h
    exact List.getD_eq_default _ _ (hlen ▸ h)

/-- Settles O37: past the width of a lane, or past the block, the XOR-in meets no block bit. -/
theorem blockBitsMeetStateBits : Obligations.BlockBitsMeetStateBits := by
  unfold Obligations.BlockBitsMeetStateBits
  intro w p a _ hw64 _
  refine ⟨stateBits_length w a, fun i z => ⟨stateBits_getElem? w a i z, ?_, ?_⟩⟩
  · rintro ⟨hz, hp⟩
    have hz64 : z < 64 := by omega
    rw [xorBlock_getLsbD, List.getElem_eq_getD false]
    simp [hz, hz64]
  · rintro (hz | hp)
    · rw [xorBlock_getLsbD]
      simp [Nat.not_lt.mpr hz]
    · rw [xorBlock_getLsbD, List.getD_eq_default _ _ hp]
      simp

/-- The slice of `m` bytes from byte `i * m` on is their little-endian number; bytes that the string does
not have count 0. -/
theorem natOfBits_slice_bits (p : List Byte) (m i : Nat) :
    natOfBits (((bits p).drop (8 * m * i)).take (8 * m)) =
      ((List.range m).map fun k => (p.getD (i * m + k) 0).toNat * 2 ^ (8 * k)).sum := by
  have hbyte (k : Nat) : (p.getD (i * m + k) 0).toNat < 256 := BitVec.isLt _
  apply Nat.eq_of_testBit_eq
  intro z
  rw [natOfBits_testBit]
  by_cases hz : z < 8 * m
  · have hpos : 8 * m * i + z = 8 * (i * m + z / 8) + z % 8 := by
      have hz8 := Nat.div_add_mod z 8
      linarith
    have hslice : (((bits p).drop (8 * m * i)).take (8 * m)).getD z false =
        (bits p).getD (8 * m * i + z) false := by
      simp [List.getD_eq_getElem?_getD, hz]
    rw [sum_testBit _ hbyte m z hz, hslice, hpos, getD_bits _ _ _ (Nat.mod_lt z (by norm_num))]
    rfl
  · rw [List.getD_eq_default _ _ ((List.length_take_le _ _).trans (Nat.le_of_not_lt hz))]
    refine (Nat.testBit_lt_two_pow ((sum_lt _ hbyte m).trans_le ?_)).symm
    exact Nat.pow_le_pow_right (by norm_num) (Nat.le_of_not_lt hz)

/-- Lane `i` is XORed with the slice of the block from `w * i` on. -/
theorem xorBlock_getElem (w : Nat) (p : Bits) (a : Lanes) (i : Fin 25) :
    (xorBlock w p a)[i] = a[i] ^^^ wordOfBits ((p.drop (w * i.val)).take w) := by
  simp [xorBlock]

/-- The XOR-in leaves a lane that starts behind the block. -/
theorem xorBlock_getElem_of_le {w : Nat} {p : Bits} (a : Lanes) {i : Fin 25} (h : p.length ≤ w * i.val) :
    (xorBlock w p a)[i] = a[i] := by
  rw [xorBlock_getElem, List.drop_eq_nil_of_le h]
  simp [wordOfBits, natOfBits]

/-- The lane widths of class A are whole bytes (R6). -/
theorem exists_bytes_of_classA_width : ∀ w ∈ [8, 16, 32, 64], ∃ m ≤ 8, 0 < m ∧ w = 8 * m := by decide

/-- Settles O38: the slice that meets lane `n` is whole bytes, and a lane from `RATE / W` on starts behind
the block. -/
theorem classABlocksAreLittleEndianWords : Obligations.ClassABlocksAreLittleEndianWords := by
  unfold Obligations.ClassABlocksAreLittleEndianWords
  intro w p a i hw hwhole _
  obtain ⟨m, -, -, rfl⟩ := exists_bytes_of_classA_width w hw
  constructor
  · intro _
    rw [xorBlock_getElem, wordOfBits, natOfBits_slice_bits, Nat.mul_div_cancel_left m (by norm_num)]
  · intro hi
    apply xorBlock_getElem_of_le
    calc (bits p).length = 8 * m * (8 * p.length / (8 * m)) := by
          rw [bits_length, Nat.mul_div_cancel' (Nat.dvd_of_mod_eq_zero hwhole)]
      _ ≤ 8 * m * i.val := Nat.mul_le_mul_left _ hi

/-- Byte `i * m + k` of an extraction that reaches it, the lanes being `m` bytes wide, is byte `k` of
lane `i` (R44, R47). -/
theorem bytes_take_stateBits_getElem? {m rate k : Nat} (a : Lanes) (i : Fin 25) (hk : k < m)
    (h : 8 * (i.val * m + k) + 8 ≤ rate) (hrate : rate ≤ 25 * (8 * m)) :
    (bytes ((stateBits (8 * m) a).take rate))[i.val * m + k]? = some (a[i].extractLsb' (8 * k) 8) := by
  have hlen : i.val * m + k < (bytes ((stateBits (8 * m) a).take rate)).length := by
    rw [bytes_length, List.length_take, stateBits_length, Nat.min_eq_left hrate]
    omega
  rw [List.getElem?_eq_getElem hlen, Option.some_inj]
  apply BitVec.eq_of_getLsbD_eq
  intro u hu
  have hpos : 8 * (i.val * m + k) + u = 8 * m * i.val + (8 * k + u) := by ring
  rw [bytes_getElem _ _ u hlen hu, List.getD_eq_getElem?_getD, List.getElem?_take_of_lt (by omega),
    hpos, stateBits_getElem? (8 * m) a i (8 * k + u) (by omega)]
  simp [hu]

/-- Settles O39: a rate of whole lanes is whole bytes, and the extraction reaches every byte of the lanes
below `RATE / W`. -/
theorem classAExtractionIsLittleEndian : Obligations.ClassAExtractionIsLittleEndian := by
  unfold Obligations.ClassAExtractionIsLittleEndian
  intro w rate a i k hw hwhole hrate hi hk
  obtain ⟨m, -, hm, rfl⟩ := exists_bytes_of_classA_width w hw
  obtain ⟨q, rfl⟩ := Nat.dvd_of_mod_eq_zero hwhole
  rw [Nat.mul_div_cancel_left q (by omega)] at hi
  rw [Nat.mul_div_cancel_left m (by norm_num)] at hk ⊢
  have hreach : 8 * (i.val * m + k) + 8 ≤ 8 * m * q :=
    calc 8 * (i.val * m + k) + 8 ≤ 8 * m * (i.val + 1) := by linarith
      _ ≤ 8 * m * q := Nat.mul_le_mul_left _ hi
  refine ⟨?_, bytes_take_stateBits_getElem? a i hk hreach hrate⟩
  rw [bytes_length, List.length_take, stateBits_length, Nat.min_eq_left hrate, Nat.mul_assoc]
  omega

end Sys2Proof.Machine

/-! What a step fetches and runs (20_memory.md R53; 30_encoding.md R76; 70_reset_and_hazards.md R180). -/

namespace Sys2Proof.Machine

section
variable {s : State}

theorem fetch_of_latch {u : UopItem} (hlatch : s.latch = some u) :
    fetch s = (decodeUop u).map fun i => (i, { s with latch := none }) := by
  simp [fetch, hlatch]

theorem fetch_of_port {c : CommandItem} {rest : List CommandItem} (hlatch : s.latch = none)
    (hport : s.port = c :: rest) :
    fetch s = (decodeCommand c).map fun i => (i, { s with port := rest }) := by
  simp [fetch, hlatch, hport]

theorem fetch_of_port_nil (hlatch : s.latch = none) (hport : s.port = []) : fetch s = .ok (.idle, s) := by
  simp [fetch, hlatch, hport]

/-- With the reset input low, a decoded instruction runs in the state its item was taken from. -/
theorem step_of_fetch_ok {s' : State} {i : Instr} (hpin : s.resetPin = .low)
    (hfetch : fetch s = .ok (i, s')) : step s = exec i s' := by
  simp [step, hpin, hfetch]

/-- With the reset input low, an item that does not decode is refused (U7, U9). -/
theorem step_of_fetch_error {e : DecodeError} (hpin : s.resetPin = .low)
    (hfetch : fetch s = .error e) : step s = .refused (.undecodable e) := by
  simp [step, hpin, hfetch]

end

/-- Settles O1, one case for each thing that can be presented. -/
theorem stepRunsThePresentedInstruction : Obligations.StepRunsThePresentedInstruction := by
  unfold Obligations.StepRunsThePresentedInstruction
  refine ⟨?reset, ?resetDuring, ?idle, ?command, ?badCommand, ?operation, ?badOperation⟩
  case reset => intro s hpin; simp [step, hpin]
  case resetDuring => intro s hpin; simp [step, hpin]
  case idle =>
    intro s hpin hlatch hport
    exact step_of_fetch_ok hpin (fetch_of_port_nil hlatch hport)
  case command =>
    intro s c rest i hpin hlatch hport hdecode
    exact step_of_fetch_ok hpin (by rw [fetch_of_port hlatch hport, hdecode]; rfl)
  case badCommand =>
    intro s c rest e hpin hlatch hport hdecode
    exact step_of_fetch_error hpin (by rw [fetch_of_port hlatch hport, hdecode]; rfl)
  case operation =>
    intro s u i hpin hlatch hdecode
    exact step_of_fetch_ok hpin (by rw [fetch_of_latch hlatch, hdecode]; rfl)
  case badOperation =>
    intro s u e hpin hlatch hdecode
    exact step_of_fetch_error hpin (by rw [fetch_of_latch hlatch, hdecode]; rfl)

end Sys2Proof.Machine

/-! The decoder of the command port, one equation for each operation code (30_encoding.md R71 to R74,
R77, R80), and the operand bits it ignores (R73, R74). -/

namespace Sys2Proof

/-- A slice of a word, read as the rules write it: the word's number without its low `start` bits (R71). -/
theorem extractLsb'_eq_ofNat_div {n : Nat} (x : BitVec n) (start len : Nat) :
    x.extractLsb' start len = BitVec.ofNat len (x.toNat / 2 ^ start) := by
  rw [BitVec.extractLsb', Nat.shiftRight_eq_div_pow]

theorem opField_of_toNat_div {cw : BitVec 98} {op : Nat} (h : cw.toNat / 2 ^ 96 = op) :
    opField cw = BitVec.ofNat 2 op := by
  rw [opField, extractLsb'_eq_ofNat_div, h]

theorem p0Field_toNat (cw : BitVec 98) : (p0Field cw).toNat = cw.toNat / 2 ^ 64 % 2 ^ 32 := by
  rw [p0Field, extractLsb'_eq_ofNat_div, BitVec.toNat_ofNat]

section
variable {cw : BitVec 98} {payload : List Byte}

theorem decodeCommand_of_op_idle (hop : opField cw = 0#2) :
    decodeCommand ⟨cw, payload⟩ = if payload.length = 0 then .ok .idle else .error .payloadLength := by
  simp [decodeCommand, commandOf, announcedLength, hop]

theorem decodeCommand_of_op_init (hop : opField cw = 1#2) :
    decodeCommand ⟨cw, payload⟩ = if payload.length = 0 then
      .ok (.init (p0Field cw) (p1Field cw) (p2Field cw)) else .error .payloadLength := by
  simp [decodeCommand, commandOf, announcedLength, hop]

theorem decodeCommand_of_op_absorb (hop : opField cw = 2#2) :
    decodeCommand ⟨cw, payload⟩ = if payload.length = (p0Field cw).toNat then
      .ok (.absorb payload) else .error .payloadLength := by
  simp [decodeCommand, commandOf, announcedLength, hop]

theorem decodeCommand_of_op_finalize (hop : opField cw = 3#2) :
    decodeCommand ⟨cw, payload⟩ = if payload.length = (p0Field cw).toNat then
      .ok (.finalize payload (tailCountField cw) (tailByteField cw))
      else .error .payloadLength := by
  simp [decodeCommand, commandOf, announcedLength, hop]

end

/-- Tags 0xB to 0xF name nothing (R79). -/
theorem decodeUop_of_unassigned_tag {u : UopItem} (htag : 0xB ≤ u.tag.toNat) :
    decodeUop u = .error .unassignedTag := by
  have hlt := u.tag.isLt
  interval_cases h : u.tag.toNat <;> simp [decodeUop, h]

/-- `p1[2:0]` is all that FINALIZE reads of `p1` (R73). -/
theorem setWidth_and_seven (p : BitVec 32) : (p &&& 0x7#32).setWidth 3 = p.setWidth 3 := by
  rw [BitVec.setWidth_and]
  exact BitVec.and_allOnes

/-- `p2[7:0]` is all that FINALIZE reads of `p2` (R73). -/
theorem setWidth_and_byte (p : BitVec 32) : (p &&& 0xFF#32).setWidth 8 = p.setWidth 8 := by
  rw [BitVec.setWidth_and]
  exact BitVec.and_allOnes

section
variable (p0 p1 p2 : BitVec 32) (payload : List Byte)

theorem decodeCommand_idle_word :
    decodeCommand ⟨commandWord 0 p0 p1 p2, payload⟩ =
      if payload.length = 0 then .ok .idle else .error .payloadLength :=
  decodeCommand_of_op_idle (opField_commandWord 0 p0 p1 p2)

theorem decodeCommand_absorb_word :
    decodeCommand ⟨commandWord 2 p0 p1 p2, payload⟩ =
      if payload.length = p0.toNat then .ok (.absorb payload) else .error .payloadLength := by
  rw [decodeCommand_of_op_absorb (opField_commandWord 2 p0 p1 p2), p0Field_commandWord]

theorem decodeCommand_finalize_word :
    decodeCommand ⟨commandWord 3 p0 p1 p2, payload⟩ =
      if payload.length = p0.toNat then .ok (.finalize payload (p1.setWidth 3) (p2.setWidth 8))
      else .error .payloadLength := by
  rw [decodeCommand_of_op_finalize (opField_commandWord 3 p0 p1 p2), p0Field_commandWord,
    tailCountField_commandWord, tailByteField_commandWord]

end

/-- Settles O2: the round trips of the fifteen instructions, one by one. -/
theorem decodeOfEncodeIsTheInstruction : Obligations.DecodeOfEncodeIsTheInstruction := by
  unfold Obligations.DecodeOfEncodeIsTheInstruction
  intro i
  cases i with
  | idle => exact Laws.RoundTrip.idle
  | init rate capacity outputSize => exact Laws.RoundTrip.init rate capacity outputSize
  | absorb payload => exact Laws.RoundTrip.absorb payload
  | finalize payload t v => exact Laws.RoundTrip.finalize payload t v
  | rotl x n w => exact Laws.RoundTrip.rotl x n w
  | log2 w => exact Laws.RoundTrip.log2 w
  | theta => exact Laws.RoundTrip.theta
  | rhopi => exact Laws.RoundTrip.rhopi
  | chi => exact Laws.RoundTrip.chi
  | iota i => exact Laws.RoundTrip.iota i
  | round i => exact Laws.RoundTrip.round i
  | permute => exact Laws.RoundTrip.permute
  | pad m r => exact Laws.RoundTrip.pad m r
  | absorbBlock p => exact Laws.RoundTrip.absorbBlock p
  | squeeze => exact Laws.RoundTrip.squeeze

/-- Settles O4: the operation code picks the decoder's equation, and the operands in it are the slices
that R80 names. -/
theorem commandPortDecodesByOperationCode : Obligations.CommandPortDecodesByOperationCode := by
  unfold Obligations.CommandPortDecodesByOperationCode
  intro cw payload
  refine ⟨?idle, ?init, ?absorb, ?finalize⟩
  case idle =>
    rintro hop rfl
    exact decodeCommand_of_op_idle (opField_of_toNat_div hop)
  case init =>
    rintro hop rfl
    rw [decodeCommand_of_op_init (opField_of_toNat_div hop)]
    simp [p0Field, p1Field, p2Field, extractLsb'_eq_ofNat_div]
  case absorb =>
    intro hop hlen
    rw [decodeCommand_of_op_absorb (opField_of_toNat_div hop), if_pos (hlen.trans (p0Field_toNat cw).symm)]
  case finalize =>
    intro hop hlen
    rw [decodeCommand_of_op_finalize (opField_of_toNat_div hop), if_pos (hlen.trans (p0Field_toNat cw).symm)]
    simp [tailCountField, tailByteField, extractLsb'_eq_ofNat_div]

/-- Settles O5: with the lengths agreeing the decoder answers `commandOf`, which is a port command. -/
theorem noCommandWordIsIllegal : Obligations.NoCommandWordIsIllegal := by
  unfold Obligations.NoCommandWordIsIllegal
  intro c hlen
  exact ⟨commandOf c, decodeCommand_eq_ok.mpr ⟨hlen, rfl⟩, commandOf_isCommand c⟩

/-- Settles O9: each assigned tag is an arm of the decoder. -/
theorem tagsNameTheInternalOperations : Obligations.TagsNameTheInternalOperations := by
  unfold Obligations.TagsNameTheInternalOperations
  intro x n w b
  exact ⟨rfl, rfl, rfl, rfl, rfl, rfl, rfl, rfl, rfl, rfl, rfl,
    fun _ htag => decodeUop_of_unassigned_tag htag⟩

/-- Settles O10: the decoder evaluated on the eight items. -/
theorem sampleWordsDecode : Obligations.SampleWordsDecode := by
  unfold Obligations.SampleWordsDecode
  decide

end Sys2Proof

/-! FINALIZE reads the tail byte by its tail bits only (30_encoding.md R74); IDLE (R76). -/

namespace Sys2Proof.Machine

theorem tailBits_congr {t : BitVec 3} {v v' : Byte} (h : ∀ k, k < t.toNat → v.getLsbD k = v'.getLsbD k) :
    tailBits t v = tailBits t v' :=
  List.map_congr_left fun k hk => h k (List.mem_range.mp hk)

theorem exec_finalize_congr {t : BitVec 3} {v v' : Byte} (h : tailBits t v = tailBits t v')
    (payload : List Byte) (s : State) :
    exec (.finalize payload t v) s = exec (.finalize payload t v') s := by
  change execFinalize payload t v s = execFinalize payload t v' s
  rw [execFinalize, execFinalize, h]

/-- Settles O8: the decoder's answer on a word built from its fields names no ignored bit, and FINALIZE
takes the tail byte through `tailBits`. -/
theorem ignoredOperandBitsHaveNoEffect : Obligations.IgnoredOperandBitsHaveNoEffect := by
  unfold Obligations.IgnoredOperandBitsHaveNoEffect
  constructor
  · intro p0 p1 p2 payload
    refine ⟨?idle, ?absorb, ?finalize⟩
    case idle => rw [decodeCommand_idle_word, decodeCommand_idle_word]
    case absorb => rw [decodeCommand_absorb_word, decodeCommand_absorb_word]
    case finalize =>
      rw [decodeCommand_finalize_word, decodeCommand_finalize_word, setWidth_and_seven, setWidth_and_byte]
  · intro payload t v v' s h
    exact exec_finalize_congr (tailBits_congr h) payload s

/-- Settles O11: the meaning of IDLE is the state it is given. -/
theorem idleChangesNothing : Obligations.IdleChangesNothing := by
  unfold Obligations.IdleChangesNothing
  exact fun _ => rfl

end Sys2Proof.Machine

/-! ROTL on words of `W` bits, as a law of bits (40_primitives.md R90, R92, R93), and THETA and RHOPI, which
inherit its linearity (41_permutation.md R101, R104). -/

namespace Sys2Proof.Machine

/-- A word of `W` bits is rotated by the rule's formula (R90). -/
theorem exec_rotl_of_lt {x : Word} {w : LaneWidth} (n : BitVec 32) (s : State) (hx : x.toNat < 2 ^ w.toNat) :
    exec (.rotl x n w) s = .next { s with result := some (.word (rotl x n.toNat w.toNat)) } :=
  if_pos hx

/-- Settles O21: the rule's formula moves the bits, and its mask bounds the result. -/
theorem rotlMovesEachBit : Obligations.RotlMovesEachBit := by
  unfold Obligations.RotlMovesEachBit
  intro x n w s hx
  exact ⟨_, exec_rotl_of_lt n s hx, rotl_lt x n.toNat w.toNat,
    fun z hz => rotl_moves x n.toNat w.toNat z w.bounds.2 hx hz⟩

section
variable {a b : Word} {w : Nat} (ha : a.toNat < 2 ^ w) (hb : b.toNat < 2 ^ w)

section
include ha hb

/-- ROTL is additive for XOR (R93): each bit of the result is one bit of the operand. -/
theorem rotl_xor (n : Nat) : rotl (a ^^^ b) n w = rotl a n w ^^^ rotl b n w := by
  apply BitVec.eq_of_getLsbD_eq
  intro z _
  rw [BitVec.getLsbD_xor, rotl_bits (xor_lt ha hb), rotl_bits ha, rotl_bits hb]
  split <;> simp [Bool.and_xor_distrib_left]

/-- ROTL is additive for AND (R93). -/
theorem rotl_and (n : Nat) : rotl (a &&& b) n w = rotl a n w &&& rotl b n w := by
  apply BitVec.eq_of_getLsbD_eq
  intro z _
  rw [BitVec.getLsbD_and, rotl_bits (and_lt hb), rotl_bits ha, rotl_bits hb]
  split <;> simp [Bool.and_assoc, Bool.and_left_comm]

end

section
include ha

/-- A word of `w` bits and its complement share no bit (R92). -/
theorem complement_and_self : (a ^^^ mask w) &&& a = 0 := by
  apply BitVec.eq_of_getLsbD_eq
  intro z hz
  rw [BitVec.getLsbD_and, BitVec.getLsbD_xor, mask_getLsbD]
  by_cases hzw : z < w
  · simp [hz, hzw]
  · simp [(lt_iff_bits a w).mp ha z (Nat.le_of_not_lt hzw)]

variable (hw : 1 ≤ w) (hw64 : w ≤ 64)
include hw hw64

/-- Rotations add (R93): bit `z` goes by way of `(z + n) mod w` to `(z + (n + k)) mod w`. -/
theorem rotl_rotl (n k : Nat) : rotl (rotl a n w) k w = rotl a (n + k) w := by
  apply eq_of_rot (n := n + k) hw (rotl_lt _ _ _) (rotl_lt _ _ _)
  intro z hz
  have hpos : (z + (n + k)) % w = ((z + n) % w + k) % w := by rw [Nat.mod_add_mod, Nat.add_assoc]
  rw [rotl_moves a (n + k) w z hw64 ha hz, hpos,
    rotl_moves _ k w _ hw64 (rotl_lt a n w) (Nat.mod_lt _ hw), rotl_moves a n w z hw64 ha hz]

/-- A rotation by the width is the identity (R93). -/
theorem rotl_self : rotl a w w = a := by
  apply eq_of_rot (n := w) hw (rotl_lt _ _ _) ha
  intro z hz
  rw [rotl_moves a w w z hw64 ha hz, Nat.add_mod_right, Nat.mod_eq_of_lt hz]

end

end

/-- Settles O22, one lemma per law; the seven widths lie from 1 to 64. -/
theorem rotlObeysTheWordLaws : Obligations.RotlObeysTheWordLaws := by
  unfold Obligations.RotlObeysTheWordLaws
  intro a b w n k ha hb
  obtain ⟨hw, hw64⟩ := w.bounds
  exact ⟨rotl_xor ha hb n, rotl_and ha hb n, rotl_rotl ha hw hw64 n k, rotl_self ha hw hw64,
    by rw [BitVec.xor_assoc, BitVec.xor_self, BitVec.xor_zero], complement_and_self ha⟩

/-- An array of 25 words at an index of the lanes' own type. -/
theorem lanesOf_getElem_fin (f : Fin 25 → Word) (i : Fin 25) : (lanesOf f)[i] = f i :=
  lanesOf_getElem f i.val i.isLt

theorem parity_xor (a b : Lanes) (x : Fin 5) :
    parity (lanesOf fun i => a[i] ^^^ b[i]) x = parity a x ^^^ parity b x := by
  simp only [parity, lanesOf_getElem_fin]
  ac_rfl

/-- THETA lane by lane: its own bits and the correction of its column (R101). -/
theorem theta_getElem (w : Nat) (a : Lanes) (i : Fin 25) :
    (theta w a)[i] = a[i] ^^^ (parity a (colOf i + 4) ^^^ rotl (parity a (colOf i + 1)) 1 w) := by
  simp [theta, addColumns, thetaD, thetaC]

theorem rhopi_getElem (w : Nat) (a : Lanes) (i : Fin 25) :
    (rhopi w a)[i] = rotl a[piSource i] (rho (piSource i)) w :=
  lanesOf_getElem_fin _ i

section
variable {w : Nat} {a b : Lanes} (ha : Fits w a) (hb : Fits w b)
include ha hb

theorem theta_xor :
    theta w (lanesOf fun i => a[i] ^^^ b[i]) = lanesOf fun i => (theta w a)[i] ^^^ (theta w b)[i] := by
  apply lanes_ext
  intro i
  have hrot := rotl_xor (parity_lt ha (colOf i + 1)) (parity_lt hb (colOf i + 1)) 1
  simp only [lanesOf_getElem_fin, theta_getElem, parity_xor, hrot]
  ac_rfl

theorem rhopi_xor :
    rhopi w (lanesOf fun i => a[i] ^^^ b[i]) = lanesOf fun i => (rhopi w a)[i] ^^^ (rhopi w b)[i] := by
  apply lanes_ext
  intro i
  simp only [lanesOf_getElem_fin, rhopi_getElem]
  exact rotl_xor (ha (piSource i)) (hb (piSource i)) (rho (piSource i))

end

/-- Settles O32: both steps are XORs and rotations of words of `w` bits. -/
theorem thetaAndRhopiAreLinear : Obligations.ThetaAndRhopiAreLinear := by
  unfold Obligations.ThetaAndRhopiAreLinear
  intro w a b ha hb
  exact ⟨theta_xor ha hb, rhopi_xor ha hb⟩

end Sys2Proof.Machine

/-! LOG2 (40_primitives.md R91), and the operands that no rule speaks of (the model's choices, log 11, 12,
20). -/

namespace Sys2Proof.Machine

theorem log2_eq_none {n : Nat} (h : n ∉ [1, 2, 4, 8, 16, 32, 64]) : log2 n = none := by
  cases hlog : log2 n with
  | none => rfl
  | some l =>
    obtain ⟨rfl, hl⟩ := log2_some hlog
    interval_cases l <;> simp at h

theorem log2Steps_two_pow {k : Nat} (h : k ≤ 6) : log2Steps (2 ^ k) = k := by
  interval_cases k <;> rfl

theorem exec_log2_of_some {w : BitVec 32} {n : Nat} (s : State) (h : log2 w.toNat = some n) :
    exec (.log2 w) s = .next { s with result := some (.number n) } := by
  change execLog2 w s = _
  rw [execLog2, h]

theorem exec_log2_of_none {w : BitVec 32} (s : State) (h : log2 w.toNat = none) :
    exec (.log2 w) s = .refused .log2OutsideDomain := by
  change execLog2 w s = _
  rw [execLog2, h]

/-- Settles O23: the seven operands are the powers of 2 on which `log2` has a value. -/
theorem log2IsTheSevenEntryTable : Obligations.Log2IsTheSevenEntryTable := by
  unfold Obligations.Log2IsTheSevenEntryTable
  constructor
  · intro k s hk
    have hpow : 2 ^ k < 2 ^ 32 := Nat.pow_lt_pow_right (by norm_num) (by omega)
    have hlog : log2 (BitVec.ofNat 32 (2 ^ k)).toNat = some k := by
      rw [BitVec.toNat_ofNat, Nat.mod_eq_of_lt hpow, log2_two_pow hk]
    exact ⟨exec_log2_of_some s hlog, log2Steps_two_pow hk⟩
  · intro w s hw
    exact exec_log2_of_none s (log2_eq_none hw)

/-- ROTL on an `x` that is no word of `W` bits returns a free word of `W` bits (log 20). -/
theorem exec_rotl_of_le {x : Word} {w : LaneWidth} (n : BitVec 32) (s : State)
    (hx : 2 ^ w.toNat ≤ x.toNat) :
    exec (.rotl x n w) s =
      .next (returnFree (fun draw => .word (Config.freeWord draw 68 &&& mask w.toNat)) s) :=
  if_neg (Nat.not_lt.mpr hx)

/-- PAD for a rate of 0 returns a free bit string (log 11). -/
theorem exec_pad_zero (m : Bits) (s : State) :
    exec (.pad m 0) s = .next (returnFree (fun draw => .bits (Config.freeBits draw)) s) := rfl

/-- ABSORB_BLOCK runs on the block that its loop reads (R132, log 12). -/
theorem exec_absorbBlock_blockOf (p : Bits) (s : State) :
    exec (.absorbBlock (blockOf s.cfg.rate.toNat s.draws p)) s = exec (.absorbBlock p) s := by
  change execAbsorbBlock _ s = execAbsorbBlock p s
  rw [execAbsorbBlock, execAbsorbBlock, blockOf_self _ _ (blockOf _ _ p) (blockOf_length _ _ p)]

/-- ABSORB_BLOCK completes where PERMUTE's guard does not fire (R109, R132). -/
theorem exec_absorbBlock_completes (p : Bits) {s : State} (hnr : s.cfg.nr.toNat ≤ 24) :
    ∃ t, exec (.absorbBlock p) s = .next t := by
  obtain ⟨-, t, ht, -⟩ | ⟨hgt, -⟩ := absorbBlock_cases (blockOf s.cfg.rate.toNat s.draws p) s
  · change ∃ t, execAbsorbBlock p s = .next t
    exact ⟨t, by rw [execAbsorbBlock, ht]; rfl⟩
  · exact absurd hnr (Nat.not_le.mpr hgt)

/-- Settles O6: the block that agrees with the operand is the one that ABSORB_BLOCK's loop reads. -/
theorem operandsOutsideTheirRuleStillRun : Obligations.OperandsOutsideTheirRuleStillRun := by
  unfold Obligations.OperandsOutsideTheirRuleStillRun
  refine ⟨?rotl, ?pad, ?absorbBlock⟩
  case rotl =>
    intro x n w s hx
    exact ⟨_, exec_rotl_of_le n s hx, and_lt mask_lt⟩
  case pad => exact fun m s => ⟨_, exec_pad_zero m s⟩
  case absorbBlock =>
    intro p s _ hnr
    obtain ⟨t, ht⟩ := exec_absorbBlock_completes p hnr
    exact ⟨blockOf s.cfg.rate.toNat s.draws p, t, blockOf_length _ _ p,
      fun j hj hjp => blockOf_getElem? _ _ p j hj hjp, ht, (exec_absorbBlock_blockOf p s).trans ht⟩

end Sys2Proof.Machine

/-! THETA, RHOPI, CHI and IOTA by coordinates, each with its frame, and the constant tables (41_permutation.md
R101 to R107). -/

namespace Sys2Proof.Machine

section
variable (s : State)

theorem exec_theta : exec .theta s = .next { s with
    lanes := theta s.cfg.w.toNat s.lanes
    scratch := { s.scratch with
      c := thetaC s.lanes
      d := thetaD s.cfg.w.toNat (thetaC s.lanes) } } := rfl

theorem exec_rhopi : exec .rhopi s =
    .next { s with scratch := { s.scratch with b := rhopi s.cfg.w.toNat s.lanes } } := rfl

theorem exec_chi : exec .chi s = .next { s with lanes := chi s.cfg.wmask s.scratch.b } := rfl

theorem exec_iota (i : BitVec 32) : exec (.iota i) s = .next { s with
    lanes := iota s.cfg.wmask (roundConstant i s.draws) s.lanes
    draws := if i.toNat < 24 then s.draws else s.draws + 1 } := rfl

theorem exec_round (i : BitVec 32) : exec (.round i) s =
    .next (finishRounds (round s.cfg.w.toNat s.cfg.wmask (roundConstant i s.draws) s.lanes) s) := rfl

theorem exec_permute : exec .permute s = settle s (permute s) := rfl

end

/-- An array of 5 words at an index of the columns' own type. -/
theorem columnsOf_getElem_fin (f : Fin 5 → Word) (x : Fin 5) : (columnsOf f)[x] = f x :=
  columnsOf_getElem f x.val x.isLt

theorem addColumns_laneAt (d : Columns) (a : Lanes) (x y : Fin 5) :
    (addColumns d a)[laneAt x y] = a[laneAt x y] ^^^ d[x] := by
  simp only [addColumns, lanesOf_getElem_fin, colOf_laneAt]

/-- Settles O24: `C` and `D` are read column by column, and each lane gets the `D` of its column. -/
theorem thetaXorsColumnCorrections : Obligations.ThetaXorsColumnCorrections := by
  unfold Obligations.ThetaXorsColumnCorrections
  intro s
  refine ⟨_, thetaC s.lanes, thetaD s.cfg.w.toNat (thetaC s.lanes), exec_theta s, ?_, ?_, ?_⟩
  · exact fun x => columnsOf_getElem_fin (parity s.lanes) x
  · exact fun x => columnsOf_getElem_fin _ x
  · exact fun x y => addColumns_laneAt _ s.lanes x y

/-- Settles O25: the source lane of column `y`, row `2x + 3y` is the lane at column `x`, row `y`. -/
theorem rhopiRotatesAndMovesLanes : Obligations.RhopiRotatesAndMovesLanes := by
  unfold Obligations.RhopiRotatesAndMovesLanes
  intro s
  refine ⟨_, exec_rhopi s, fun x y => ?_⟩
  simp only [rhopi_getElem, pi_laneAt]

theorem chi_laneAt (wmask : Word) (b : Lanes) (x y : Fin 5) :
    (chi wmask b)[laneAt x y] =
      b[laneAt x y] ^^^ ((b[laneAt (x + 1) y] ^^^ wmask) &&& b[laneAt (x + 2) y]) := by
  simp only [chi, lanesOf_getElem_fin, colOf_laneAt, rowOf_laneAt]

/-- Settles O26, by the coordinates of the lane. -/
theorem chiCombinesAlongRows : Obligations.ChiCombinesAlongRows := by
  unfold Obligations.ChiCombinesAlongRows
  exact fun s => ⟨_, exec_chi s, chi_laneAt s.cfg.wmask s.scratch.b⟩

section
variable (wmask k : Word) (a : Lanes)

theorem iota_getElem_zero : (iota wmask k a)[0] = a[0] ^^^ (k &&& wmask) := lanesOf_getElem _ 0 (by decide)

theorem iota_getElem_of_ne {i : Fin 25} (hi : i ≠ 0) : (iota wmask k a)[i] = a[i] := by
  rw [iota, lanesOf_getElem_fin, if_neg hi]

end

section
variable {n : Nat} (hn : n < 24)
include hn

theorem toNat_ofNat_of_lt_24 : (BitVec.ofNat 32 n).toNat = n := by
  rw [BitVec.toNat_ofNat, Nat.mod_eq_of_lt (by omega)]

/-- The constant of round `n` is table entry `n` (R107). -/
theorem roundConstant_ofNat (draw : Nat) : roundConstant (BitVec.ofNat 32 n) draw = rcTable[n] := by
  have hidx : (BitVec.ofNat 32 n).toNat = n := toNat_ofNat_of_lt_24 hn
  rw [roundConstant_of_lt _ draw (by rwa [hidx])]
  simp only [hidx]

/-- With a round index of the table IOTA draws no free value. -/
theorem exec_iota_ofNat (s : State) : exec (.iota (BitVec.ofNat 32 n)) s =
    .next { s with lanes := iota s.cfg.wmask rcTable[n] s.lanes } := by
  rw [exec_iota, roundConstant_ofNat hn, toNat_ofNat_of_lt_24 hn, if_pos hn]

end

/-- Settles O27: below 24 every index has its table entry, whatever `NR` is. -/
theorem iotaXorsTheRoundConstant : Obligations.IotaXorsTheRoundConstant := by
  unfold Obligations.IotaXorsTheRoundConstant
  exact fun i s _ => ⟨_, exec_iota_ofNat i.isLt s, iota_getElem_zero _ _ _,
    fun k hk => iota_getElem_of_ne _ _ _ hk⟩

theorem rcTable_eq_rcGenerated : ∀ i : Fin 24, rcTable[i].toNat = rcGenerated i.val := by decide

theorem rho_rhoWalk : ∀ t : Fin 24,
    rho (laneAt (rhoWalk t.val).1 (rhoWalk t.val).2) = (t.val + 1) * (t.val + 2) / 2 % 64 := by decide

theorem piDest_eq_self_iff : ∀ i : Fin 25, piDest i = i ↔ i = 0 := by decide

/-- Settles O33, one finite fact per table. -/
theorem constantTablesRegenerate : Obligations.ConstantTablesRegenerate := by
  unfold Obligations.ConstantTablesRegenerate
  exact ⟨rcTable_eq_rcGenerated, ⟨rfl, rho_rhoWalk⟩,
    fun i => ⟨piSource_piDest i, piDest_piSource i, piDest_eq_self_iff i⟩⟩

end Sys2Proof.Machine

/-! ROUND as its four steps, and PERMUTE as its rounds (41_permutation.md R108, R109). -/

namespace Sys2Proof.Machine

section
variable {i : Instr} {is js : List Instr} {s t : State}

theorem runAll_cons_of_next (h : exec i s = .next t) : runAll (i :: is) s = runAll is t := by
  rw [runAll, h]

/-- A list that goes through hands its state to the list behind it. -/
theorem runAll_append_of_next (h : runAll is s = .next t) : runAll (is ++ js) s = runAll js t := by
  induction is generalizing s with
  | nil => cases h; rfl
  | cons i is ih =>
    rw [runAll] at h
    split at h
    case h_1 s' hs' =>
      rw [List.cons_append, runAll_cons_of_next hs']
      exact ih h
    all_goals cases h

end

/-- The four steps, given in order, go through and leave the lanes of the round (R108); every index has its
constant, and only the scratch arrays and the counter of free values tell ROUND from them (R29). -/
theorem runAll_roundSteps (i : BitVec 32) (s : State) :
    ∃ u, runAll [.theta, .rhopi, .chi, .iota i] s = .next u ∧
      SameButScratch
        { s with lanes := round s.cfg.w.toNat s.cfg.wmask (roundConstant i s.draws) s.lanes } u := by
  rw [runAll_cons_of_next (exec_theta s), runAll_cons_of_next (exec_rhopi _),
    runAll_cons_of_next (exec_chi _), runAll_cons_of_next (exec_iota _ i)]
  exact ⟨_, rfl, rfl⟩

theorem SameButScratch.symm {s t : State} (h : SameButScratch s t) : SameButScratch t s := by
  rw [SameButScratch] at h ⊢
  rw [← h]

/-- ROUND is its four steps for every round index. -/
theorem exec_round_sameButScratch_roundSteps (i : BitVec 32) (s : State) :
    ∃ t u : State, runAll [.theta, .rhopi, .chi, .iota i] s = .next u ∧ exec (.round i) s = .next t ∧
      SameButScratch u t := by
  obtain ⟨u, hu, hsame⟩ := runAll_roundSteps i s
  exact ⟨_, u, hu, exec_round s i, hsame.symm.trans (finishRounds_same _ s)⟩

/-- Settles O28: that the index is below `NR` is not needed. -/
theorem roundIsItsFourSteps : Obligations.RoundIsItsFourSteps := by
  unfold Obligations.RoundIsItsFourSteps
  exact fun i s _ _ => exec_round_sameButScratch_roundSteps i s

/-- Settles O29: the constant is the one that IOTA takes for any index, the table's below 24. -/
theorem roundIndicesFromNrOnStillRun : Obligations.RoundIndicesFromNrOnStillRun := by
  unfold Obligations.RoundIndicesFromNrOnStillRun
  intro i s _
  exact ⟨⟨roundConstant i s.draws, _, _, exec_iota s i, iota_getElem_zero _ _ _,
    fun k hk => iota_getElem_of_ne _ _ _ hk, roundConstant_of_lt i s.draws⟩,
    exec_round_sameButScratch_roundSteps i s⟩

/-- The rounds `0` to `n` are the rounds `0` to `n - 1` and then one with `RC[n]` (R109). -/
theorem keccakF_succ (w : Nat) (wmask : Word) {n : Nat} (hn : n < 24) (a : Lanes) :
    keccakF w wmask (n + 1) a = round w wmask rcTable[n] (keccakF w wmask n a) := by
  have htake : rcTable.toList.take (n + 1) = rcTable.toList.take n ++ [rcTable[n]] := by
    rw [List.take_succ_eq_append_getElem (by simpa using hn), Vector.getElem_toList]
  rw [keccakF, htake, List.foldl_append]
  rfl

/-- ROUND with an index of the table, from a state that is known but for its scratch arrays. -/
theorem exec_round_of_sameButScratch {s t : State} {n : Nat} (hn : n < 24) (h : SameButScratch s t) :
    ∃ u, exec (.round (BitVec.ofNat 32 n)) t = .next u ∧
      SameButScratch { s with lanes := round s.cfg.w.toNat s.cfg.wmask rcTable[n] s.lanes } u := by
  refine ⟨_, exec_round t _, ?_⟩
  obtain ⟨hcfg, hlanes, hrest⟩ := SameButScratch.iff.mp h
  rw [roundConstant_ofNat hn, hcfg, hlanes]
  exact SameButScratch.iff.mpr ⟨hcfg, rfl, hrest⟩

/-- The rounds `0` to `n - 1`, run one after the other, permute the lanes by as many rounds of Keccak-f. -/
theorem runAll_rounds (s : State) {n : Nat} (hn : n ≤ 24) :
    ∃ u, runAll ((List.range n).map fun i => .round (BitVec.ofNat 32 i)) s = .next u ∧
      SameButScratch { s with lanes := keccakF s.cfg.w.toNat s.cfg.wmask n s.lanes } u := by
  induction n with
  | zero => exact ⟨s, rfl, rfl⟩
  | succ n ih =>
    obtain ⟨t, ht, hsame⟩ := ih (by omega)
    obtain ⟨u, hu, hsame'⟩ := exec_round_of_sameButScratch hn hsame
    refine ⟨u, ?_, ?_⟩
    · rw [List.range_succ, List.map_append, runAll_append_of_next ht]
      exact runAll_cons_of_next hu
    · rw [keccakF_succ _ _ hn]
      exact hsame'

/-- Settles O30: both are Keccak-f on the lanes, or the guard stands before the first round. -/
theorem permuteIsItsRounds : Obligations.PermuteIsItsRounds := by
  unfold Obligations.PermuteIsItsRounds
  intro s
  constructor
  · intro hnr
    obtain ⟨u, hu, hsame⟩ := runAll_rounds s hnr
    have hpermute : exec .permute s = .next (finishRounds (s.cfg.keccak s.lanes) s) := by
      rw [exec_permute, permute_of_le s hnr, settle]
    exact ⟨_, u, hu, hpermute, hsame.symm.trans (finishRounds_same _ s)⟩
  · intro hnr
    rw [exec_permute, permute_of_gt s hnr]
    rfl

end Sys2Proof.Machine

/-! PAD on bit strings (42_padding.md R120, R121). -/

namespace Sys2Proof.Machine

theorem exec_pad_of_pos (m : Bits) {r : BitVec 32} (s : State) (hr : 1 ≤ r.toNat) :
    exec (.pad m r) s = .next { s with result := some (.bits (pad m r.toNat)) } :=
  if_neg fun h => by simp [h] at hr

/-- Settles O34: the number of zeros is `padZeros`. -/
theorem padAppendsOneZerosOne : Obligations.PadAppendsOneZerosOne := by
  unfold Obligations.PadAppendsOneZerosOne
  intro m r s hr
  obtain ⟨hlt, hmod⟩ := padZeros_lt m.length r.toNat hr
  exact ⟨padZeros m.length r.toNat, hlt, hmod, exec_pad_of_pos m s hr⟩

section
variable {m : Bits} {r : Nat}

theorem length_add_two_le_pad_length : m.length + 2 ≤ (pad m r).length := by
  rw [pad_length]
  omega

section
variable (hr : 1 ≤ r)
include hr

theorem dvd_pad_length : r ∣ (pad m r).length := by
  rw [pad_length]
  exact Nat.dvd_of_mod_eq_zero (padZeros_lt m.length r hr).2

theorem pad_length_lt : (pad m r).length < m.length + 2 + r := by
  rw [pad_length]
  exact Nat.add_lt_add_left (padZeros_lt m.length r hr).1 _

theorem pad_length_le {n : Nat} (hdvd : r ∣ n) (hn : m.length + 2 ≤ n) : (pad m r).length ≤ n :=
  Nat.le_of_lt_add_of_dvd ((pad_length_lt hr).trans_le (Nat.add_le_add_right hn r)) (dvd_pad_length hr) hdvd

/-- Only one multiple of the rate lies in the range of R121. -/
theorem pad_length_eq {n : Nat} (hdvd : r ∣ n) (hn : m.length + 2 ≤ n) (hlt : n < m.length + 2 + r) :
    (pad m r).length = n := by
  refine (pad_length_le hr hdvd hn).antisymm ?_
  have hlt' : n < (pad m r).length + r := hlt.trans_le (Nat.add_le_add_right length_add_two_le_pad_length r)
  exact Nat.le_of_lt_add_of_dvd hlt' hdvd (dvd_pad_length hr)

theorem pad_length_eq_mul_ceilDiv : (pad m r).length = r * ceilDiv (m.length + 2) r := by
  have hle := Nat.mul_div_le (m.length + 2 + r - 1) r
  have hgt := Nat.lt_mul_div_succ (m.length + 2 + r - 1) hr
  rw [Nat.mul_succ] at hgt
  exact pad_length_eq hr ⟨_, rfl⟩ (by unfold ceilDiv; omega) (by unfold ceilDiv; omega)

/-- The last block of the message has room for both ones. -/
theorem pad_length_of_room (h : m.length % r + 2 ≤ r) : (pad m r).length = r * (m.length / r + 1) := by
  have hm := Nat.div_add_mod m.length r
  refine pad_length_eq hr ⟨_, rfl⟩ ?_ ?_ <;> rw [Nat.mul_succ] <;> omega

/-- The last block of the message has room for the first 1 only. -/
theorem pad_length_of_no_room (h : m.length % r = r - 1) : (pad m r).length = r * (m.length / r + 2) := by
  have hm := Nat.div_add_mod m.length r
  refine pad_length_eq hr ⟨_, rfl⟩ ?_ ?_ <;> rw [Nat.mul_add] <;> omega

end

/-- A padded string is known from its length. -/
theorem pad_eq_of_length {j : Nat} (h : (pad m r).length = m.length + 2 + j) :
    pad m r = m ++ [true] ++ List.replicate j false ++ [true] := by
  have hj : padZeros m.length r = j := by
    rw [pad_length] at h
    omega
  rw [pad, hj]

theorem take_length_pad : (pad m r).take m.length = m := by
  rw [pad, List.append_assoc, List.append_assoc, List.take_left]

/-- After the message come a 1, zeros, and a 1 at the end. -/
theorem pad_getElem? {k : Nat} (hmk : m.length ≤ k) (hk : k < (pad m r).length) :
    (pad m r)[k]? = some (decide (k = m.length ∨ k = (pad m r).length - 1)) := by
  obtain ⟨i, rfl⟩ := Nat.exists_eq_add_of_le hmk
  rw [pad_length] at hk ⊢
  rw [pad, List.append_assoc, List.append_assoc, List.getElem?_append_right hmk, Nat.add_sub_cancel_left]
  cases i with
  | zero => simp
  | succ i =>
    rw [List.singleton_append, List.getElem?_cons_succ]
    by_cases hi : i < padZeros m.length r
    · rw [decide_eq_false (by omega), List.getElem?_append_left (by simpa using hi)]
      simp [hi]
    · obtain rfl : i = padZeros m.length r := by omega
      rw [decide_eq_true (by omega)]
      simp

end

/-- What a padded string was made of: without the final 1, the zeros before it and the 1 before those
(R121). -/
def unpad (p : Bits) : Bits := (p.dropLast.rdropWhile (! ·)).dropLast

theorem rdropWhile_not_append_zeros (x : Bits) (j : Nat) :
    (x ++ [true] ++ List.replicate j false).rdropWhile (! ·) = x ++ [true] := by
  induction j with
  | zero =>
    rw [List.replicate_zero, List.append_nil]
    exact List.rdropWhile_concat_neg _ _ _ (by decide)
  | succ j ih =>
    rw [List.replicate_succ', ← List.append_assoc, List.rdropWhile_concat_pos _ _ _ rfl]
    exact ih

theorem unpad_pad (m : Bits) (r : Nat) : unpad (pad m r) = m := by
  rw [unpad, pad, List.dropLast_concat, rdropWhile_not_append_zeros, List.dropLast_concat]

/-- Settles O35: the length is the multiple of the rate that lies in its range, and `unpad` undoes PAD. -/
theorem padLengthLaws : Obligations.PadLengthLaws := by
  unfold Obligations.PadLengthLaws
  intro m r hr
  have hge : m.length + 2 ≤ (pad m r).length := length_add_two_le_pad_length
  have hlt := pad_length_lt (m := m) hr
  refine ⟨pad_length_eq_mul_ceilDiv hr, hge, by omega, fun n => pad_length_le hr, take_length_pad,
    ?firstOne, ?lastOne, ?zeros, ?room, ?noRoom, ?rateOne, ?rateTwoEven, ?rateTwoOdd, ?injective⟩
  case firstOne => simp [pad_getElem? (r := r) (le_refl m.length) (by omega)]
  case lastOne => simp [pad_getElem? (m := m) (r := r) (k := (pad m r).length - 1) (by omega) (by omega)]
  case zeros =>
    intro k hk hlast
    rw [pad_getElem? (by omega) (by omega), decide_eq_false (by omega)]
  case room =>
    intro h
    rw [pad_length_of_room hr h, Nat.mul_div_cancel_left _ hr]
  case noRoom =>
    intro h
    rw [pad_length_of_no_room hr h, Nat.mul_div_cancel_left _ hr]
  case rateOne =>
    rintro rfl
    rw [pad_eq_of_length (j := 0) (by omega)]
    simp
  case rateTwoEven =>
    rintro rfl heven
    rw [pad_eq_of_length (j := 0) (by rw [pad_length_of_room hr (by omega)]; omega)]
    simp
  case rateTwoOdd =>
    rintro rfl hodd
    rw [pad_eq_of_length (j := 1) (by rw [pad_length_of_no_room hr hodd]; omega)]
    simp
  case injective =>
    intro m' h
    rw [← unpad_pad m r, h, unpad_pad]

end Sys2Proof.Machine

/-! PAD in bytes (42_padding.md R122 to R126). -/

namespace Sys2Proof.Machine

theorem byteBits_eq {b : Byte} {x : Bits} (hlen : x.length = 8) (h : ∀ u < 8, x[u]? = some (b.getLsbD u)) :
    byteBits b = x := by
  apply List.ext_getElem?
  intro u
  by_cases hu : u < 8
  · simp [byteBits, hu, h u hu]
  · rw [List.getElem?_eq_none (by simpa using hu), List.getElem?_eq_none (by omega)]

theorem padFirstByte_getLsbD (t : BitVec 3) (v : Byte) {u : Nat} (hu : u < 8) :
    (padFirstByte t v).getLsbD u = if u < t.toNat then v.getLsbD u else decide (u = t.toNat) := by
  have ht := t.isLt
  rw [padFirstByte, BitVec.getLsbD_or, BitVec.getLsbD_and, BitVec.getLsbD_shiftLeft, BitVec.getLsbD_ofNat,
    BitVec.getLsbD_one, Nat.testBit_two_pow_sub_one]
  split
  · simp [*]
  · have hone : u - t.toNat = 0 ↔ u = t.toNat := by omega
    simp [*]

/-- The first padding byte: the tail bits, the leading 1 and zeros above (R123). -/
theorem byteBits_padFirstByte (t : BitVec 3) (v : Byte) :
    byteBits (padFirstByte t v) = tailBits t v ++ [true] ++ List.replicate (7 - t.toNat) false := by
  have ht := t.isLt
  apply byteBits_eq
  · simp
    omega
  · intro u hu
    rw [padFirstByte_getLsbD t v hu, List.append_assoc]
    split
    · rw [List.getElem?_append_left (by simpa)]
      simp [tailBits, *]
    · obtain ⟨i, rfl⟩ := Nat.exists_eq_add_of_le (Nat.le_of_not_lt ‹_›)
      rw [List.getElem?_append_right (by simp), tailBits_length, Nat.add_sub_cancel_left]
      cases i with
      | zero => simp
      | succ i =>
        have hi : i < 7 - t.toNat := by omega
        simp [hi]

/-- The final 1 is bit 7 of its byte (R124, R125). -/
theorem byteBits_or_final (b : Byte) : byteBits (b ||| 0x80) = (byteBits b).take 7 ++ [true] := by
  simp [byteBits, List.range_succ]

theorem bits_replicate_zero (n : Nat) : bits (List.replicate n 0) = List.replicate (8 * n) false := by
  induction n with
  | zero => rfl
  | succ n ih =>
    rw [List.replicate_succ', bits_append, ih, Nat.mul_succ, List.replicate_add]
    rfl

theorem bits_singleton (b : Byte) : bits [b] = byteBits b := List.append_nil _

/-- Both ones fall in one byte exactly when the output ends with the byte after the whole bytes (R126). -/
theorem pad_tight_iff {x : Bits} {q t r : Nat} (hx : x.length = 8 * q + t) (ht : t < 8) (hr : 1 ≤ r)
    (h8 : 8 ∣ r) :
    (r - 8 ≤ (8 * q + t) % r ∧ (8 * q + t) % r ≤ r - 2) ↔ (pad x r).length = 8 * q + 8 := by
  obtain ⟨s, rfl⟩ := h8
  rw [← hx]
  constructor
  · intro htight
    have hm := Nat.div_add_mod x.length (8 * s)
    rw [pad_length_of_room hr (by omega), Nat.mul_succ]
    rw [Nat.mul_assoc] at hm ⊢
    omega
  · intro hend
    have hge : x.length + 2 ≤ (pad x (8 * s)).length := length_add_two_le_pad_length
    obtain ⟨c, hc⟩ : 8 * s ∣ 8 * q + 8 := hend ▸ dvd_pad_length hr
    obtain ⟨c, rfl⟩ : ∃ d, c = d + 1 := Nat.exists_eq_succ_of_ne_zero (by rintro rfl; omega)
    rw [Nat.mul_succ] at hc
    have hmod : x.length % (8 * s) = 8 * s - 8 + t := by
      rw [show x.length = 8 * s * c + (8 * s - 8 + t) by omega, Nat.mul_add_mod, Nat.mod_eq_of_lt (by omega)]
    omega

section
variable (f : List Byte) (t : BitVec 3) (v : Byte) {r : Nat}

theorem message_length : (bits f ++ tailBits t v).length = 8 * f.length + t.toNat := by
  rw [List.length_append, bits_length, tailBits_length]

/-- The tight case of R124, on bits. -/
theorem bits_tight (ht : t.toNat ≤ 6) : bits (f ++ [padFirstByte t v ||| 0x80]) =
    bits f ++ tailBits t v ++ [true] ++ List.replicate (6 - t.toNat) false ++ [true] := by
  have hzeros : 7 - t.toNat = 6 - t.toNat + 1 := by omega
  have htake : (byteBits (padFirstByte t v)).take 7 =
      tailBits t v ++ [true] ++ List.replicate (6 - t.toNat) false := by
    rw [byteBits_padFirstByte, hzeros, List.replicate_succ', ← List.append_assoc]
    refine List.take_left' ?_
    simp only [List.length_append, tailBits_length, List.length_singleton, List.length_replicate]
    omega
  rw [bits_append, bits_singleton, byteBits_or_final, htake]
  simp only [List.append_assoc]

/-- The multi-byte case of R125, on bits. -/
theorem bits_multi (n : Nat) : bits (f ++ [padFirstByte t v] ++ List.replicate n 0 ++ [0x80]) =
    bits f ++ tailBits t v ++ [true] ++ List.replicate (7 - t.toNat + 8 * n + 7) false ++ [true] := by
  have hlast : byteBits 0x80 = List.replicate 7 false ++ [true] := rfl
  simp only [bits_append, bits_singleton, byteBits_padFirstByte, bits_replicate_zero, hlast, List.replicate_add,
    List.append_assoc]

/-- The padder in bytes, read as bits, is the padder on bits: the two cases differ in the byte of the final 1
(R126). -/
theorem bits_padBytes (hr : 1 ≤ r) (h8 : 8 ∣ r) :
    bits (padBytes f t v r) = pad (bits f ++ tailBits t v) r := by
  have hx := message_length f t v
  have hge : (bits f ++ tailBits t v).length + 2 ≤ (pad (bits f ++ tailBits t v) r).length :=
    length_add_two_le_pad_length
  have htight := pad_tight_iff hx t.isLt hr h8
  simp only [padBytes]
  split
  next h =>
    have hlen := htight.mp h
    rw [bits_tight f t v (by omega), pad_eq_of_length (j := 6 - t.toNat) (by omega)]
  next h =>
    have hlen : (pad (bits f ++ tailBits t v) r).length = 8 * (r / 8 * ceilDiv (8 * f.length + t.toNat + 2) r) := by
      rw [pad_length_eq_mul_ceilDiv hr, hx, ← Nat.mul_assoc, Nat.mul_div_cancel' h8]
    have hne := mt htight.mpr h
    rw [bits_multi]
    exact (pad_eq_of_length (by omega)).symm

end

/-- Settles O36: the bytes are known from their bits. -/
theorem padInBytesIsPadInBits : Obligations.PadInBytesIsPadInBits := by
  unfold Obligations.PadInBytesIsPadInBits
  intro f t v r hr h8
  rw [← bits_padBytes f t v hr (Nat.dvd_of_mod_eq_zero h8), bytes_bits]

end Sys2Proof.Machine

/-! INIT, ABSORB, FINALIZE, ABSORB_BLOCK and SQUEEZE, each with all it leaves, and the blocks of a bit
string (43_sponge.md R130 to R138). -/

namespace Sys2Proof.Machine

/-- A successful INIT writes the same valid registers whatever the state (R130). -/
theorem exec_init_of_legal {r c : BitVec 32} (n : BitVec 32) (h : InitLegal r c) :
    ∃ cfg : ConfigRegs, cfg.Valid ∧ cfg.rate.toNat = r.toNat ∧ cfg.cap.toNat = c.toNat ∧ cfg.outsz = n ∧
      ∀ s, exec (.init r c n) s = .next (respond .ok [] (establish cfg s)) := by
  obtain ⟨hr, l, hl, hsum⟩ := (initLegal_iff_exists_log r c).mp h
  obtain ⟨hrate, hcap, houtsz, -⟩ := initConfig_fields r c n l hl hsum
  exact ⟨_, initConfig_valid r c n l hl hsum hr, hrate, hcap, houtsz,
    fun s => exec_init_of_log n s hr hl hsum⟩

/-- Settles O12: the derived registers follow from the two given ones, since the registers are valid. -/
theorem initConfiguresOrRefuses : Obligations.InitConfiguresOrRefuses := by
  unfold Obligations.InitConfiguresOrRefuses
  intro r c n s
  constructor
  · intro hlegal
    obtain ⟨cfg, hcfg, hrate, hcap, houtsz, hexec⟩ := exec_init_of_legal n hlegal
    have hstsz : cfg.stsz.toNat = r.toNat + c.toNat := by rw [← hcfg.sum, hrate, hcap]
    have hw : cfg.w.toNat = cfg.stsz.toNat / 25 := by
      rw [hcfg.width, Nat.mul_div_cancel_left _ (by norm_num)]
    have hwmask : cfg.wmask.toNat = 2 ^ cfg.w.toNat - 1 := by rw [hcfg.wmask, mask_toNat hcfg.w_le]
    exact ⟨cfg, hexec s, hrate, hcap, houtsz, hstsz, hw, hcfg.log.symm, hcfg.rounds, hwmask⟩
  · exact exec_init_of_not_legal n s

/-- Blocks and what is behind them are the whole string, however many blocks are taken. -/
theorem chunks_flatten_append_drop (r n : Nat) (p : Bits) :
    (chunks r n p).flatten ++ p.drop (n * r) = p := by
  induction n generalizing p with
  | zero => simp [chunks]
  | succ n ih =>
    have hdrop : p.drop ((n + 1) * r) = (p.drop r).drop (n * r) := by
      rw [List.drop_drop, Nat.succ_mul, Nat.add_comm]
    rw [chunks, List.flatten_cons, List.append_assoc, hdrop, ih, List.take_append_drop]

/-- A block that is complete has `r` bits. -/
theorem length_slice {r k : Nat} {p : Bits} (h : k < p.length / r) :
    ((p.drop (k * r)).take r).length = r := by
  have hend : (k + 1) * r ≤ p.length :=
    (Nat.mul_le_mul_right r h).trans (Nat.div_mul_le_self p.length r)
  rw [List.length_take, List.length_drop]
  rw [Nat.succ_mul] at hend
  omega

/-- Settles O15: the loops' blocks are the slices, and taking blocks off loses no bit. -/
theorem blocksAreConsecutiveSlices : Obligations.BlocksAreConsecutiveSlices := by
  unfold Obligations.BlocksAreConsecutiveSlices
  intro c p _
  refine ⟨(blocks_eq_chunks c p).symm, ?count, fun k hk => ?slice, fun b hb => ?length, ?whole⟩
  case count => rw [blocks_eq_chunks, chunks_length]
  case slice => simp [ConfigRegs.blocks, hk]
  case length =>
    obtain ⟨k, hk, rfl⟩ := List.mem_map.mp hb
    exact length_slice (List.mem_range.mp hk)
  case whole => rw [blocks_eq_chunks, chunks_flatten_append_drop]

/-- The remainder of a bit string behind its complete blocks (R131). -/
def ConfigRegs.rest (c : ConfigRegs) (p : Bits) : Bits :=
  p.drop (p.length / c.rate.toNat * c.rate.toNat)

/-- The answer of a FINALIZE that squeezed the bits `z` (R138). -/
def digestAnswer (z : Bits) : Response := ⟨.ok, BitVec.ofNat 32 (bytes z).length, bytes z⟩

theorem ConfigRegs.Valid.rest_length_lt {c : ConfigRegs} (hc : c.Valid) (p : Bits) :
    (c.rest p).length < c.rate.toNat := by
  rw [ConfigRegs.rest, List.length_drop, ← Nat.mod_eq_sub_div_mul]
  exact Nat.mod_lt _ hc.rate_pos

section
variable {s : State} (d : List Byte) (k : BitVec 3) (v : Byte)

theorem exec_absorb_of_not_accepting (h : s.phase.accepting = false) :
    exec (.absorb d) s = .next (raise .invalidState s) := by
  change execAbsorb d s = _
  simp [execAbsorb, h]

theorem exec_finalize_of_not_accepting (h : s.phase.accepting = false) :
    exec (.finalize d k v) s = .next (raise .invalidState s) := by
  change execFinalize d k v s = _
  simp [execFinalize, h]

variable (hacc : s.phase.accepting = true) (hc : s.cfg.Valid)
include hacc hc

/-- ABSORB in an accepting phase completes (R131). -/
theorem exec_absorb_of_accepting : ∃ t, exec (.absorb d) s = .next t ∧
    SameButScratch { s with
      lanes := s.cfg.absorb (s.cfg.blocks (s.pend ++ bits d)) s.lanes
      pend := s.cfg.rest (s.pend ++ bits d)
      phase := .absorbing
      responses := s.responses ++ [⟨.ok, 0, []⟩] } t := by
  obtain ⟨u, hu, hsame, -⟩ := absorbBlocks_spec (s.cfg.blocks (s.pend ++ bits d)) s hc.nr_le
  rw [blocks_eq_chunks] at hu
  refine ⟨respond .ok [] { u with pend := s.cfg.rest (s.pend ++ bits d), phase := .absorbing }, ?_, ?_⟩
  · change execAbsorb d s = _
    simp only [execAbsorb, hacc, hc.rate_ne, hu]
    rfl
  · obtain ⟨hcfg, hlanes, -, -, hport, hresponses, hrest⟩ := SameButScratch.iff.mp hsame
    exact SameButScratch.iff.mpr ⟨hcfg, hlanes, rfl, rfl, hport, by simp [hresponses], hrest⟩

/-- FINALIZE in an accepting phase completes (R136). -/
theorem exec_finalize_of_accepting {a : Lanes}
    (ha : a = s.cfg.absorb
      (s.cfg.blocks (pad (s.pend ++ bits d ++ tailBits k v) s.cfg.rate.toNat)) s.lanes) :
    ∃ t, exec (.finalize d k v) s = .next t ∧
      SameButScratch { s with
        lanes := s.cfg.squeezed a
        pend := []
        phase := .finalized
        responses := s.responses ++ [digestAnswer (s.cfg.squeeze a)] } t := by
  obtain ⟨u, hu, hsame, -⟩ := absorbBlocks_spec
    (s.cfg.blocks (pad (s.pend ++ bits d ++ tailBits k v) s.cfg.rate.toNat)) s hc.nr_le
  rw [← ha] at hsame
  obtain ⟨hcfg, hlanes, -⟩ := SameButScratch.iff.mp hsame
  obtain ⟨u', hu', hsame', -⟩ := squeeze_spec u (hcfg ▸ hc.nr_le)
  rw [blocks_eq_chunks] at hu
  rw [hcfg, hlanes] at hu'
  refine ⟨respond .ok (bytes (s.cfg.squeeze a)) { u' with pend := [], phase := .finalized }, ?_, ?_⟩
  · change execFinalize d k v s = _
    simp only [execFinalize, hacc, hc.rate_ne, hu, Except.bind, hu']
    rfl
  · obtain ⟨hcfg', hlanes', -, -, hport, hresponses, hrest⟩ :=
      SameButScratch.iff.mp (hsame.squeezed.trans hsame')
    exact SameButScratch.iff.mpr ⟨hcfg', hlanes', rfl, rfl, hport,
      by simp [hresponses, digestAnswer], hrest⟩

end

/-- Settles O16: an accepting phase absorbs and keeps the remainder, another one is refused. -/
theorem absorbConsumesEveryCompleteBlock : Obligations.AbsorbConsumesEveryCompleteBlock := by
  unfold Obligations.AbsorbConsumesEveryCompleteBlock
  intro d s
  constructor
  · intro hphase hc
    obtain ⟨t, ht, hsame⟩ := exec_absorb_of_accepting d ((accepting_iff _).mpr hphase) hc
    obtain ⟨-, -, hpend, -⟩ := SameButScratch.iff.mp hsame
    exact ⟨t, ht, hpend ▸ hc.rest_length_lt _, hsame⟩
  · exact fun hphase => exec_absorb_of_not_accepting d ((not_accepting_iff _).mpr hphase)

/-- Settles O17: the digest has the length of the squeezed string, which is `OUTSZ` bits. -/
theorem finalizeReturnsTheDigest : Obligations.FinalizeReturnsTheDigest := by
  unfold Obligations.FinalizeReturnsTheDigest
  intro d k v s
  constructor
  · intro hphase hc
    obtain ⟨u, hu, hsame⟩ := exec_finalize_of_accepting d k v ((accepting_iff _).mpr hphase) hc rfl
    exact ⟨u, hu, _, _, _, _, rfl, rfl, rfl, by rw [bytes_length, ConfigRegs.squeeze_length hc], rfl, hsame⟩
  · exact fun hphase => exec_finalize_of_not_accepting d k v ((not_accepting_iff _).mpr hphase)

/-- ABSORB_BLOCK on a whole block is PERMUTE on the lanes with the block XORed in (R132). -/
theorem exec_absorbBlock_of_length {p : Bits} {s : State} (hp : p.length = s.cfg.rate.toNat) :
    exec (.absorbBlock p) s =
      settle s (permute { s with lanes := xorBlock s.cfg.w.toNat p s.lanes }) := by
  change execAbsorbBlock p s = _
  rw [execAbsorbBlock, blockOf_self _ _ p hp, absorbBlock]

/-- Settles O40: both end in the permutation of the lanes with the block XORed in. -/
theorem absorbBlockXorsThenPermutes : Obligations.AbsorbBlockXorsThenPermutes := by
  unfold Obligations.AbsorbBlockXorsThenPermutes
  intro p s hp hc
  have hpermute := permute_of_le { s with lanes := xorBlock s.cfg.w.toNat p s.lanes } hc.nr_le
  rw [exec_absorbBlock_of_length hp, exec_permute, hpermute]
  exact ⟨_, _, rfl, rfl, rfl, rfl⟩

/-- Settles O41: with a rate that is not 0, SQUEEZE by itself returns what `squeeze` gives. -/
theorem squeezeExtractsAndPermutes : Obligations.SqueezeExtractsAndPermutes := by
  unfold Obligations.SqueezeExtractsAndPermutes
  intro s hc
  obtain ⟨u, hu, hsame, -⟩ := squeeze_spec s hc.nr_le
  have hexec : exec .squeeze s =
      .next { u with result := some (.bits (s.cfg.squeeze s.lanes)) } := by
    change execSqueeze s = _
    simp only [execSqueeze, hc.rate_ne, false_and, if_false, hu]
    rfl
  obtain ⟨hcfg, hlanes, hpend, hphase, hport, hresponses, hlatch, -, hpin⟩ := SameButScratch.iff.mp hsame
  exact ⟨_, _, hexec, ConfigRegs.squeeze_length hc _, by rw [← List.flatMap_def]; rfl,
    SameButScratch.iff.mpr ⟨hcfg, hlanes, hpend, hphase, hport, hresponses, hlatch, rfl, hpin⟩⟩

theorem SameButScratch.phase_eq {s t : State} (h : SameButScratch s t) : t.phase = s.phase := by
  obtain ⟨-, -, -, hphase, -⟩ := SameButScratch.iff.mp h
  exact hphase

theorem SameButScratch.responses_eq {s t : State} (h : SameButScratch s t) :
    t.responses = s.responses := by
  obtain ⟨-, -, -, -, -, hresponses, -⟩ := SameButScratch.iff.mp h
  exact hresponses

/-- The phase after a command that is refused outside the accepting phases and else sets `PHASE` to `q`. -/
theorem exec_phase_of_accepting {i : Instr} {s : State} {q : Phase}
    (hrefused : s.phase.accepting = false → exec i s = .next (raise .invalidState s))
    (haccepted : s.phase.accepting = true → ∃ t, exec i s = .next t ∧ t.phase = q) :
    ∃ t, exec i s = .next t ∧ t.phase = (if s.phase.accepting then q else s.phase) ∧
      (s.phase = .unconfigured ∨ s.phase = .finalized → t = raise .invalidState s) := by
  cases hacc : s.phase.accepting with
  | false => exact ⟨_, hrefused hacc, rfl, fun _ => rfl⟩
  | true =>
    obtain ⟨t, ht, hphase⟩ := haccepted hacc
    refine ⟨t, ht, hphase, fun h => ?_⟩
    rw [(not_accepting_iff _).mpr h] at hacc
    cases hacc

/-- Settles O19: the invariant gives the valid registers that an accepting phase needs. -/
theorem phaseTransitionsAreTheTable : Obligations.PhaseTransitionsAreTheTable := by
  unfold Obligations.PhaseTransitionsAreTheTable
  intro s hs
  refine ⟨⟨s, rfl, rfl⟩, fun r c n hlegal => ?init, fun r c n hlegal => ?refused, fun d => ?absorb,
    fun d k v => ?finalize⟩
  case init =>
    obtain ⟨cfg, -, -, -, -, hexec⟩ := exec_init_of_legal n hlegal
    exact ⟨_, hexec s, rfl⟩
  case refused => exact ⟨_, exec_init_of_not_legal n s hlegal, rfl⟩
  case absorb =>
    obtain ⟨t, ht, hphase, hrefused⟩ := exec_phase_of_accepting (exec_absorb_of_not_accepting d)
      fun hacc => (exec_absorb_of_accepting d hacc (hs.configured_of_accepting hacc).1).imp
        fun _ ⟨ht, hsame⟩ => ⟨ht, hsame.phase_eq⟩
    exact ⟨t, ht, by rw [hphase]; cases s.phase <;> rfl, hrefused⟩
  case finalize =>
    obtain ⟨t, ht, hphase, hrefused⟩ := exec_phase_of_accepting (exec_finalize_of_not_accepting d k v)
      fun hacc => (exec_finalize_of_accepting d k v hacc (hs.configured_of_accepting hacc).1 rfl).imp
        fun _ ⟨ht, hsame⟩ => ⟨ht, hsame.phase_eq⟩
    exact ⟨t, ht, by rw [hphase]; cases s.phase <;> rfl, hrefused⟩

/-- Settles O49, by induction on the sequence: a refused command leaves the phase. -/
theorem finalizedInstanceIsOneShot : Obligations.FinalizedInstanceIsOneShot := by
  unfold Obligations.FinalizedInstanceIsOneShot
  intro is s hphase his
  have hacc : s.phase.accepting = false := (not_accepting_iff _).mpr (.inr hphase)
  induction is generalizing s with
  | nil => simp [runAll]
  | cons i is ih =>
    have hexec : exec i s = .next (raise .invalidState s) := by
      obtain ⟨d, rfl⟩ | ⟨d, k, v, rfl⟩ := his i List.mem_cons_self
      · exact exec_absorb_of_not_accepting d hacc
      · exact exec_finalize_of_not_accepting d k v hacc
    have htail := ih (raise .invalidState s) hphase (fun j hj => his j (List.mem_cons_of_mem i hj)) hacc
    rw [runAll_cons_of_next hexec, htail]
    simp [raise, respond, List.replicate_succ]

end Sys2Proof.Machine

/-! The sponge function (43_sponge.md R140 to R149): chunking, the digest, what the answers depend on, and
the iteration. -/

namespace Sys2Proof.Machine

/-- The padding behind `m ++ x` is the padding behind what complete blocks of `m` leave. -/
theorem pad_append_eq_rest (c : ConfigRegs) (m x : Bits) : pad (m ++ x) c.rate.toNat =
    m ++ (x ++ (pad (c.rest m ++ x) c.rate.toNat).drop (c.rest m ++ x).length) := by
  have hlen : (m ++ x).length =
      c.rate.toNat * (m.length / c.rate.toNat) + (c.rest m ++ x).length := by
    have := Nat.div_mul_le_self m.length c.rate.toNat
    rw [ConfigRegs.rest, List.length_append, List.length_append, List.length_drop, Nat.mul_comm]
    omega
  rw [pad_append _ _ _ _ hlen, List.append_assoc]

section
variable {c : ConfigRegs} (h : 1 ≤ c.rate.toNat) (m x : Bits)
include h

/-- Cutting a string behind complete blocks does not change its remainder. -/
theorem rest_append : c.rest (m ++ x) = c.rest (c.rest m ++ x) := (blocks_append c h m x).2

/-- Absorbing what is left of `m` with `x` behind it goes on where absorbing `m` stopped. -/
theorem absorb_blocks_append (a : Lanes) :
    c.absorb (c.blocks (m ++ x)) a = c.absorb (c.blocks (c.rest m ++ x)) (c.absorb (c.blocks m) a) := by
  rw [(blocks_append c h m x).1, absorb_append]
  rfl

/-- The same for padded messages. -/
theorem absorb_blocks_pad_append (a : Lanes) :
    c.absorb (c.blocks (pad (m ++ x) c.rate.toNat)) a =
      c.absorb (c.blocks (pad (c.rest m ++ x) c.rate.toNat)) (c.absorb (c.blocks m) a) := by
  rw [pad_append_eq_rest, absorb_blocks_append h, ← List.append_assoc, pad_self]

end

/-- The engine has been configured with `c` and has taken the message `m` since (R131). -/
structure HasTaken (c : ConfigRegs) (m : Bits) (s : State) : Prop where
  cfg       : s.cfg = c
  accepting : s.phase.accepting = true
  lanes     : s.lanes = c.absorb (c.blocks m) (lanesOf fun _ => 0)
  pend      : s.pend = c.rest m

/-- The engine has been configured with `c`, has hashed the message `m` and has answered the digest last
(R136, R142). -/
structure HasHashed (c : ConfigRegs) (m : Bits) (s : State) : Prop where
  cfg    : s.cfg = c
  phase  : s.phase = .finalized
  lanes  : s.lanes = c.squeezed (c.absorb (c.blocks (pad m c.rate.toNat)) (lanesOf fun _ => 0))
  answer : s.responses.getLast? = some (digestAnswer (c.sponge m))

theorem HasHashed.lastDigest {c : ConfigRegs} {m : Bits} {s : State} (h : HasHashed c m s) :
    lastDigest s = bytes (c.sponge m) := by
  rw [Machine.lastDigest, h.answer, digestAnswer]

theorem hasTaken_establish (c : ConfigRegs) (s : State) :
    HasTaken c [] (respond .ok [] (establish c s)) where
  cfg := rfl
  accepting := rfl
  lanes := by simp [ConfigRegs.blocks, ConfigRegs.absorb]
  pend := by simp [ConfigRegs.rest]

section
variable {c : ConfigRegs} (hc : c.Valid) {m : Bits} {s : State} (hs : HasTaken c m s)
include hc hs

theorem HasTaken.exec_absorb (d : List Byte) :
    ∃ t, exec (.absorb d) s = .next t ∧ HasTaken c (m ++ bits d) t := by
  obtain ⟨rfl, hacc, hlanes, hpend⟩ := hs
  obtain ⟨t, ht, hsame⟩ := exec_absorb_of_accepting d hacc hc
  obtain ⟨hcfg, hlanes', hpend', hphase, -⟩ := SameButScratch.iff.mp hsame
  exact ⟨t, ht, {
    cfg := hcfg
    accepting := by rw [hphase]; rfl
    lanes := hlanes'.trans (by rw [absorb_blocks_append hc.rate_pos m, ← hlanes, ← hpend])
    pend := hpend'.trans (by rw [rest_append hc.rate_pos m, ← hpend]) }⟩

theorem HasTaken.runAll_absorbs (ds : List (List Byte)) :
    ∃ t, runAll (ds.map .absorb) s = .next t ∧ HasTaken c (m ++ bits ds.flatten) t := by
  induction ds generalizing m s with
  | nil => exact ⟨s, rfl, by simpa [bits] using hs⟩
  | cons d ds ih =>
    obtain ⟨t, ht, htaken⟩ := hs.exec_absorb hc d
    obtain ⟨u, hu, hutaken⟩ := ih htaken
    refine ⟨u, (runAll_cons_of_next ht).trans hu, ?_⟩
    rwa [List.append_assoc, ← bits_append, ← List.flatten_cons] at hutaken

theorem HasTaken.exec_finalize (d : List Byte) (k : BitVec 3) (v : Byte) :
    ∃ t, exec (.finalize d k v) s = .next t ∧ HasHashed c (m ++ (bits d ++ tailBits k v)) t := by
  obtain ⟨rfl, hacc, hlanes, hpend⟩ := hs
  have habsorbed := absorb_blocks_pad_append hc.rate_pos m (bits d ++ tailBits k v) (lanesOf fun _ => 0)
  rw [← hlanes, ← hpend, ← List.append_assoc s.pend] at habsorbed
  obtain ⟨t, ht, hsame⟩ := exec_finalize_of_accepting d k v hacc hc habsorbed
  obtain ⟨hcfg, hlanes', -, hphase, -, hresponses, -⟩ := SameButScratch.iff.mp hsame
  exact ⟨t, ht, hcfg, hphase, hlanes', by rw [hresponses, List.getLast?_concat]; rfl⟩

end

/-- A hash of the port, from any state: INIT, any ABSORBs and FINALIZE (R141, R142). -/
theorem runAll_hash {c : ConfigRegs} (hc : c.Valid) {i : Instr}
    (hinit : ∀ s, exec i s = .next (respond .ok [] (establish c s)))
    (ds : List (List Byte)) (d : List Byte) (k : BitVec 3) (v : Byte) (s : State) :
    ∃ u, runAll ([i] ++ ds.map .absorb ++ [.finalize d k v]) s = .next u ∧
      HasHashed c (bits (ds.flatten ++ d) ++ tailBits k v) u := by
  obtain ⟨t, ht, htaken⟩ := (hasTaken_establish c s).runAll_absorbs hc ds
  obtain ⟨u, hu, hhashed⟩ := htaken.exec_finalize hc d k v
  refine ⟨u, ?_, by simpa using hhashed⟩
  rw [List.append_assoc, List.singleton_append, runAll_cons_of_next (hinit s),
    runAll_append_of_next ht, runAll_cons_of_next hu]
  rfl

/-- Settles O50: both runs hash the same bits. -/
theorem digestDoesNotDependOnChunking : Obligations.DigestDoesNotDependOnChunking := by
  unfold Obligations.DigestDoesNotDependOnChunking
  intro r cap n ds d k v s hlegal
  obtain ⟨c, hc, -, -, -, hinit⟩ := exec_init_of_legal n hlegal
  obtain ⟨u, hu, hhashed⟩ := runAll_hash hc hinit ds d k v s
  obtain ⟨u', hu', hhashed'⟩ := runAll_hash hc hinit [] (ds.flatten ++ d) k v s
  exact ⟨u, u', hu, hu', hhashed.answer.trans hhashed'.answer.symm, by simp [hhashed.answer],
    hhashed.phase, hhashed'.phase, hhashed.lanes.trans hhashed'.lanes.symm⟩

/-- Settles O51: the run hashes the message bits with the registers INIT wrote. -/
theorem digestIsTheSpongeFunction : Obligations.DigestIsTheSpongeFunction := by
  unfold Obligations.DigestIsTheSpongeFunction
  intro r cap n ds d k v s hlegal
  obtain ⟨c, hc, hrate, hcap, houtsz, hinit⟩ := exec_init_of_legal n hlegal
  obtain ⟨u, hu, hhashed⟩ := runAll_hash hc hinit ds d k v s
  have hw : c.w.toNat = (r.toNat + cap.toNat) / 25 := by
    rw [← hrate, ← hcap, hc.sum, hc.width, Nat.mul_div_cancel_left _ (by norm_num)]
  refine ⟨u, hu, ?_⟩
  rw [hhashed.cfg]
  exact ⟨hrate, houtsz, hw, hc, hhashed.lastDigest⟩

/-- Iterated hashing of byte strings by one configuration (R149). -/
theorem iterateHash_spec {c : ConfigRegs} (hc : c.Valid) {r cap n : BitVec 32}
    (hinit : ∀ s, exec (.init r cap n) s = .next (respond .ok [] (establish c s)))
    (k : Nat) (m : List Byte) (s : State) :
    ∃ u, iterateHash r cap n k m s = .next u ∧ u.cfg = c ∧
      lastDigest u = (fun d => bytes (c.sponge (bits d)))^[k + 1] m := by
  induction k generalizing m s with
  | zero =>
    obtain ⟨u, hu, hhashed⟩ := runAll_hash hc hinit [] m 0 0 s
    exact ⟨u, hu, hhashed.cfg, by simpa [tailBits] using hhashed.lastDigest⟩
  | succ k ih =>
    obtain ⟨t, ht, hhashed⟩ := runAll_hash hc hinit [] m 0 0 s
    obtain ⟨u, hu, hcfg, hdigest⟩ := ih (lastDigest t) t
    have ht' : runAll (hashCommands r cap n m) s = .next t := ht
    have hm : lastDigest t = bytes (c.sponge (bits m)) := by
      simpa [tailBits] using hhashed.lastDigest
    refine ⟨u, by rw [iterateHash, ht']; exact hu, hcfg, ?_⟩
    rw [hdigest, hm, Function.iterate_succ_apply _ (k + 1)]

/-- Settles O53: every iteration writes the same registers. -/
theorem iterationChainsFreshInstances : Obligations.IterationChainsFreshInstances := by
  unfold Obligations.IterationChainsFreshInstances
  intro r cap n k m s hlegal
  obtain ⟨c, hc, hrate, hcap, houtsz, hinit⟩ := exec_init_of_legal n hlegal
  obtain ⟨u, hu, rfl, hdigest⟩ := iterateHash_spec hc hinit k m s
  exact ⟨u, hu, hc, hrate, hcap, houtsz, hdigest⟩

/-- The state of R10 but for the scratch arrays: what the answers of an engine depend on. The model's own
fields are not in it. -/
structure SpongeState where
  cfg   : ConfigRegs
  lanes : Lanes
  pend  : Bits
  phase : Phase

/-- That part of the state of an engine. -/
def State.sponge (s : State) : SpongeState := ⟨s.cfg, s.lanes, s.pend, s.phase⟩

theorem SameButScratch.sponge_eq {s t : State} (h : SameButScratch s t) : t.sponge = s.sponge := by
  obtain ⟨hcfg, hlanes, hpend, hphase, -⟩ := SameButScratch.iff.mp h
  rw [State.sponge, State.sponge, hcfg, hlanes, hpend, hphase]

/-- Given in any state that holds `a`, the commands answer `out` and leave `b`. -/
def Answers (is : List Instr) (a b : SpongeState) (out : List Response) : Prop :=
  ∀ s : State, s.sponge = a → ∃ t, runAll is s = .next t ∧ t.sponge = b ∧ t.responses = s.responses ++ out

theorem Answers.append {is js : List Instr} {a b c : SpongeState} {out out' : List Response}
    (h : Answers is a b out) (h' : Answers js b c out') : Answers (is ++ js) a c (out ++ out') := by
  intro s hs
  obtain ⟨t, ht, hb, hout⟩ := h s hs
  obtain ⟨u, hu, hc, hout'⟩ := h' t hb
  exact ⟨u, (runAll_append_of_next ht).trans hu, hc, by rw [hout', hout, List.append_assoc]⟩

theorem answers_of_exec {i : Instr} {a b : SpongeState} {out : List Response}
    (h : ∀ s : State, s.sponge = a → ∃ t, exec i s = .next t ∧ t.sponge = b ∧
      t.responses = s.responses ++ out) : Answers [i] a b out := by
  intro s hs
  obtain ⟨t, ht, hrest⟩ := h s hs
  exact ⟨t, runAll_cons_of_next ht, hrest⟩

section
variable {i : Instr} {a : SpongeState}

/-- A command that is refused with `e` answers so and leaves `a`. -/
theorem answers_of_raise {e : Status} (h : ∀ s : State, s.sponge = a → exec i s = .next (raise e s)) :
    Answers [i] a a [⟨e, 0, []⟩] :=
  answers_of_exec fun s hs => ⟨_, h s hs, hs, rfl⟩

/-- Each command of the port answers what the `SpongeState` alone determines, and leaves one with
valid registers. -/
theorem exists_answers_of_command (hi : i.isCommand = true) (hc : a.cfg.Valid) :
    ∃ b out, b.cfg.Valid ∧ Answers [i] a b out := by
  cases i with
  | idle => exact ⟨a, [], hc, answers_of_exec fun s hs => ⟨s, rfl, hs, (List.append_nil _).symm⟩⟩
  | init r cap n =>
    by_cases hlegal : InitLegal r cap
    · obtain ⟨c, hcvalid, -, -, -, hinit⟩ := exec_init_of_legal n hlegal
      exact ⟨⟨c, lanesOf fun _ => 0, [], .configured⟩, [⟨.ok, 0, []⟩], hcvalid,
        answers_of_exec fun s _ => ⟨_, hinit s, rfl, rfl⟩⟩
    · exact ⟨a, _, hc, answers_of_raise fun s _ => exec_init_of_not_legal n s hlegal⟩
  | absorb d =>
    cases hacc : a.phase.accepting with
    | false =>
      exact ⟨a, _, hc, answers_of_raise fun s hs => exec_absorb_of_not_accepting d (by rwa [← hs] at hacc)⟩
    | true =>
      refine ⟨⟨a.cfg, a.cfg.absorb (a.cfg.blocks (a.pend ++ bits d)) a.lanes,
        a.cfg.rest (a.pend ++ bits d), .absorbing⟩, [⟨.ok, 0, []⟩], hc, answers_of_exec ?_⟩
      rintro s rfl
      obtain ⟨t, ht, hsame⟩ := exec_absorb_of_accepting d hacc hc
      exact ⟨t, ht, hsame.sponge_eq, hsame.responses_eq⟩
  | finalize d k v =>
    cases hacc : a.phase.accepting with
    | false =>
      exact ⟨a, _, hc,
        answers_of_raise fun s hs => exec_finalize_of_not_accepting d k v (by rwa [← hs] at hacc)⟩
    | true =>
      obtain ⟨a', ha'⟩ : ∃ a', a' = a.cfg.absorb
          (a.cfg.blocks (pad (a.pend ++ bits d ++ tailBits k v) a.cfg.rate.toNat)) a.lanes := ⟨_, rfl⟩
      refine ⟨⟨a.cfg, a.cfg.squeezed a', [], .finalized⟩, [digestAnswer (a.cfg.squeeze a')], hc,
        answers_of_exec ?_⟩
      rintro s rfl
      obtain ⟨t, ht, hsame⟩ := exec_finalize_of_accepting d k v hacc hc ha'
      exact ⟨t, ht, hsame.sponge_eq, hsame.responses_eq⟩
  | _ => cases hi

end

/-- Any commands of the port, by induction on their list. -/
theorem exists_answers_of_commands {is : List Instr} (his : ∀ i ∈ is, i.isCommand = true) {a : SpongeState}
    (hc : a.cfg.Valid) : ∃ b out, Answers is a b out := by
  induction is generalizing a with
  | nil => exact ⟨a, [], fun s hs => ⟨s, rfl, hs, (List.append_nil _).symm⟩⟩
  | cons i is ih =>
    obtain ⟨b, out, hb, hhead⟩ := exists_answers_of_command (his i List.mem_cons_self) hc
    obtain ⟨b', out', htail⟩ := ih (fun j hj => his j (List.mem_cons_of_mem i hj)) hb
    exact ⟨b', out ++ out', hhead.append htail⟩

/-- Settles O52: INIT leaves the same `SpongeState` in any two states, and it determines the answers to the
rest. -/
theorem answersDependOnlyOnCommandsSinceInit : Obligations.AnswersDependOnlyOnCommandsSinceInit := by
  unfold Obligations.AnswersDependOnlyOnCommandsSinceInit
  intro r cap n is s s' hlegal his
  obtain ⟨c, hc, -, -, -, hinit⟩ := exec_init_of_legal n hlegal
  obtain ⟨b, out, hout⟩ := exists_answers_of_commands (a := ⟨c, lanesOf fun _ => 0, [], .configured⟩) his hc
  have hrun (s : State) : ∃ u, runAll (.init r cap n :: is) s = .next u ∧
      u.responses = s.responses ++ (⟨.ok, 0, []⟩ :: out) := by
    obtain ⟨u, hu, -, hresponses⟩ := hout (respond .ok [] (establish c s)) rfl
    exact ⟨u, (runAll_cons_of_next (hinit s)).trans hu, by simp [hresponses]⟩
  obtain ⟨u, hu, hresponses⟩ := hrun s
  obtain ⟨u', hu', hresponses'⟩ := hrun s'
  exact ⟨u, u', _, hu, hu', hresponses, hresponses'⟩

end Sys2Proof.Machine

/-! Exceptions (60_exceptions.md R160 to R172): what an answer with an error status leaves, and which
refusals and answers a state between commands can meet. -/

namespace Sys2Proof.Machine

/-- Settles O7: the decoder's only check is that of the payload length. -/
theorem payloadOfAnotherLengthIsRefused : Obligations.PayloadOfAnotherLengthIsRefused := by
  unfold Obligations.PayloadOfAnotherLengthIsRefused
  exact fun _ hlen => if_neg hlen

/-- An instruction gives no response, or one with the status OK, or takes an exception (R75, R164). -/
theorem exec_response_cases {i : Instr} {s t : State} (h : exec i s = .next t) :
    t.responses = s.responses ∨
    (∃ r, t.responses = s.responses ++ [r] ∧ r.status = .ok) ∨
    ∃ e, t = raise e s := by
  cases i with
  | idle => cases h; exact .inl rfl
  | init r c n =>
    obtain ⟨-, cfg, -, rfl⟩ | ⟨-, rfl⟩ := exec_init_cases h
    · exact .inr (.inl ⟨_, rfl, rfl⟩)
    · exact .inr (.inr ⟨_, rfl⟩)
  | absorb d =>
    obtain ⟨-, rfl⟩ | ⟨-, rfl⟩ | ⟨u, -, -, hu, rfl⟩ := exec_absorb_cases h
    · exact .inr (.inr ⟨_, rfl⟩)
    · exact .inr (.inr ⟨_, rfl⟩)
    · exact .inr (.inl ⟨_, congrArg (· ++ _) hu.responses_eq, rfl⟩)
  | finalize d k v =>
    obtain ⟨-, rfl⟩ | ⟨-, rfl⟩ | ⟨u, a, -, -, -, hu, rfl⟩ := exec_finalize_cases h
    · exact .inr (.inr ⟨_, rfl⟩)
    · exact .inr (.inr ⟨_, rfl⟩)
    · exact .inr (.inl ⟨_, congrArg (· ++ _) hu.responses_eq, rfl⟩)
  | _ =>
    obtain hsame | ⟨-, rfl⟩ := exec_internal_cases rfl h
    · obtain ⟨-, -, -, -, -, -, hresponses⟩ := SameControl.iff.mp hsame
      exact .inl hresponses
    · exact .inr (.inr ⟨_, rfl⟩)

/-- Settles O45: an answer that is not OK is an exception taken, which only adds its response. -/
theorem errorsChangeNothing : Obligations.ErrorsChangeNothing := by
  unfold Obligations.ErrorsChangeNothing
  intro i s t r h hr hstatus
  obtain hnone | ⟨r', hr', hok⟩ | ⟨e, rfl⟩ := exec_response_cases h
  · simp [hnone] at hr
  · obtain rfl : r' = r := by simpa [hr'] using hr
    exact absurd hok hstatus
  · obtain rfl : ⟨e, 0, []⟩ = r := by simpa using hr
    exact ⟨rfl, rfl, rfl⟩

section
variable {s : State} (hs : s.Inv)
include hs

/-- Between commands every command of the port completes, and PERMUTE's guard does not fire: ABSORB and
FINALIZE run blocks in an accepting phase only, where the registers are valid (R11, R162, R163). -/
theorem exec_command_completes {i : Instr} (hi : i.isCommand = true) : ∃ t, exec i s = .next t ∧
    (t.responses = s.responses ∨
      ∃ r, t.responses = s.responses ++ [r] ∧ r.status ≠ .unsupportedRoundCount) := by
  cases i with
  | idle => exact ⟨s, rfl, .inl rfl⟩
  | init r c n =>
    by_cases hlegal : InitLegal r c
    · obtain ⟨cfg, -, -, -, -, hinit⟩ := exec_init_of_legal n hlegal
      exact ⟨_, hinit s, .inr ⟨_, rfl, nofun⟩⟩
    · exact ⟨_, exec_init_of_not_legal n s hlegal, .inr ⟨_, rfl, nofun⟩⟩
  | absorb d =>
    cases hacc : s.phase.accepting with
    | false => exact ⟨_, exec_absorb_of_not_accepting d hacc, .inr ⟨_, rfl, nofun⟩⟩
    | true =>
      obtain ⟨hc, -⟩ := hs.configured_of_accepting hacc
      obtain ⟨t, ht, hsame⟩ := exec_absorb_of_accepting d hacc hc
      exact ⟨t, ht, .inr ⟨_, hsame.responses_eq, nofun⟩⟩
  | finalize d k v =>
    cases hacc : s.phase.accepting with
    | false => exact ⟨_, exec_finalize_of_not_accepting d k v hacc, .inr ⟨_, rfl, nofun⟩⟩
    | true =>
      obtain ⟨hc, -⟩ := hs.configured_of_accepting hacc
      obtain ⟨t, ht, hsame⟩ := exec_finalize_of_accepting d k v hacc hc rfl
      exact ⟨t, ht, .inr ⟨_, hsame.responses_eq, nofun⟩⟩
  | _ => cases hi

/-- A step that takes a command off the port runs it, or refuses its payload (R53, U7). -/
theorem step_of_port {c : CommandItem} {rest : List CommandItem} (hpin : s.resetPin = .low)
    (hport : s.port = c :: rest) : (∃ t, step s = .next t) ∨
      (c.payload.length ≠ announcedLength c.word ∧ step s = .refused (.undecodable .payloadLength)) := by
  have hfetch := fetch_of_port hs.no_latch hport
  by_cases hlen : c.payload.length = announcedLength c.word
  · rw [decodeCommand_eq_ok.mpr ⟨hlen, rfl⟩] at hfetch
    obtain ⟨t, ht, -⟩ := exec_command_completes (hs.with_port rest) (commandOf_isCommand c)
    exact .inl ⟨t, (step_of_fetch_ok hpin hfetch).trans ht⟩
  · rw [payloadOfAnotherLengthIsRefused c hlen] at hfetch
    exact .inr ⟨hlen, step_of_fetch_error hpin hfetch⟩

end

/-- Settles O44: a reset and IDLE always go on, and so does a command that decodes. -/
theorem stepFromTheInvariantIsSafe : Obligations.StepFromTheInvariantIsSafe := by
  unfold Obligations.StepFromTheInvariantIsSafe
  intro s hs
  cases hpin : s.resetPin with
  | betweenCommands => exact .inl ⟨hardwareReset s, by simp [step, hpin]⟩
  | duringCommand => exact .inl ⟨hardwareReset (abandonCommand s), by simp [step, hpin]⟩
  | low =>
    cases hport : s.port with
    | nil => exact .inl ⟨s, step_of_fetch_ok hpin (fetch_of_port_nil hs.no_latch hport)⟩
    | cons c rest =>
      exact (step_of_port hs hpin hport).imp_right fun ⟨hlen, hstep⟩ => ⟨c, rest, rfl, hlen, hstep⟩

/-- Settles O48: the guard is an exception; a reset and IDLE answer nothing, and no command of the port
meets the guard. -/
theorem unsupportedRoundCountIsUnreachable : Obligations.UnsupportedRoundCountIsUnreachable := by
  unfold Obligations.UnsupportedRoundCountIsUnreachable
  constructor
  · intro s hnr
    have hexec : exec .permute s = .next (raise .unsupportedRoundCount s) := by
      rw [exec_permute, permute_of_gt s hnr, settle]
    exact ⟨_, hexec, rfl, rfl⟩
  · intro s t hs h
    obtain rfl | rfl | ⟨-, rfl⟩ | ⟨c, rest, -, hexec⟩ := step_cases hs.no_latch h
    · exact .inl (hardwareReset_responses s)
    · exact .inl ((hardwareReset_responses _).trans (abandonCommand_responses s))
    · exact .inl rfl
    · obtain ⟨u, hu, hanswer⟩ := exec_command_completes (hs.with_port rest) (commandOf_isCommand c)
      cases hexec.symm.trans hu
      exact hanswer

end Sys2Proof.Machine

/-! How often each command runs PERMUTE, by the counter of free values (70_reset_and_hazards.md R190). -/

namespace Sys2Proof.Machine

theorem ConfigRegs.blocks_length (c : ConfigRegs) (p : Bits) :
    (c.blocks p).length = p.length / c.rate.toNat := by
  rw [blocks_eq_chunks, chunks_length]

/-- A padded message has the fewest whole blocks that hold it and the two ones (R121). -/
theorem ConfigRegs.Valid.blocks_pad_length {c : ConfigRegs} (hc : c.Valid) (m : Bits) :
    (c.blocks (pad m c.rate.toNat)).length = ceilDiv (m.length + 2) c.rate.toNat := by
  rw [ConfigRegs.blocks_length, pad_length_eq_mul_ceilDiv hc.rate_pos,
    Nat.mul_div_cancel_left _ hc.rate_pos]

theorem exec_init_draws {r c n : BitVec 32} {s t : State} (h : exec (.init r c n) s = .next t) :
    t.draws = s.draws := by
  obtain ⟨-, cfg, -, rfl⟩ | ⟨-, rfl⟩ := exec_init_cases h
  · rw [respond_draws, establish_draws]
  · rw [raise_draws]

section
variable {s : State} (d : List Byte) (k : BitVec 3) (v : Byte)
  (hacc : s.phase.accepting = true) (hc : s.cfg.Valid)
include hacc hc

/-- ABSORB runs PERMUTE once for each complete block (R131). -/
theorem exec_absorb_draws : ∃ t, exec (.absorb d) s = .next t ∧
    t.draws = s.draws + (s.cfg.blocks (s.pend ++ bits d)).length := by
  obtain ⟨u, hu, -, hdraws⟩ := absorbBlocks_spec (s.cfg.blocks (s.pend ++ bits d)) s hc.nr_le
  rw [blocks_eq_chunks] at hu
  refine ⟨respond .ok [] { u with pend := s.cfg.rest (s.pend ++ bits d), phase := .absorbing }, ?_, hdraws⟩
  change execAbsorb d s = _
  simp only [execAbsorb, hacc, hc.rate_ne, hu]
  rfl

/-- FINALIZE runs PERMUTE once for each block of the padded message and once between each two extractions
(R136, R137). -/
theorem exec_finalize_draws : ∃ t, exec (.finalize d k v) s = .next t ∧
    t.draws = s.draws +
      ((s.cfg.blocks (pad (s.pend ++ bits d ++ tailBits k v) s.cfg.rate.toNat)).length +
        (s.cfg.extractions - 1)) := by
  obtain ⟨u, hu, hsame, hdraws⟩ := absorbBlocks_spec
    (s.cfg.blocks (pad (s.pend ++ bits d ++ tailBits k v) s.cfg.rate.toNat)) s hc.nr_le
  obtain ⟨hcfg, -⟩ := SameButScratch.iff.mp hsame
  obtain ⟨u', hu', -, hdraws'⟩ := squeeze_spec u (hcfg ▸ hc.nr_le)
  rw [blocks_eq_chunks] at hu
  refine ⟨respond .ok (bytes (u.cfg.squeeze u.lanes)) { u' with pend := [], phase := .finalized }, ?_, ?_⟩
  · change execFinalize d k v s = _
    simp only [execFinalize, hacc, hc.rate_ne, hu, Except.bind, hu']
    rfl
  · rw [respond_draws, hdraws', hdraws, hcfg, Nat.add_assoc]

end

/-- Settles O54: the blocks of the buffered bits with the payload, and of their padding, are counted by
their lengths. -/
theorem permuteCountsPerCommand : Obligations.PermuteCountsPerCommand := by
  unfold Obligations.PermuteCountsPerCommand
  intro d k v s hc
  refine ⟨fun _ _ _ _ h => exec_init_draws h, fun hphase => ?_⟩
  have hacc := (accepting_iff _).mpr hphase
  have hlen : (s.pend ++ bits d).length = s.pend.length + 8 * d.length := by
    rw [List.length_append, bits_length]
  obtain ⟨t, ht, hdraws⟩ := exec_absorb_draws d hacc hc
  obtain ⟨u, hu, hdraws'⟩ := exec_finalize_draws d k v hacc hc
  rw [ConfigRegs.blocks_length, hlen] at hdraws
  rw [hc.blocks_pad_length, List.length_append, hlen, tailBits_length] at hdraws'
  exact ⟨⟨t, ht, hdraws⟩, ⟨u, hu, hdraws'⟩⟩

end Sys2Proof.Machine

/-! The block loops with `RATE = 0` (70_reset_and_hazards.md R189; log 9). -/

namespace Sys2Proof.Machine

section
variable {s : State}

section
variable (hrate : s.cfg.rate = 0#11)
include hrate

theorem exec_absorb_of_rate_zero (d : List Byte) (hacc : s.phase.accepting = true) :
    exec (.absorb d) s = .fault .blockLoopNeverEnds := by
  change execAbsorb d s = _
  simp [execAbsorb, hacc, hrate]

theorem exec_finalize_of_rate_zero (d : List Byte) (k : BitVec 3) (v : Byte)
    (hacc : s.phase.accepting = true) : exec (.finalize d k v) s = .fault .blockLoopNeverEnds := by
  change execFinalize d k v s = _
  simp [execFinalize, hacc, hrate]

theorem exec_squeeze_of_rate_zero (houtsz : s.cfg.outsz ≠ 0#32) :
    exec .squeeze s = .fault .blockLoopNeverEnds := if_pos ⟨hrate, houtsz⟩

end

theorem ceilDiv_zero (r : Nat) : ceilDiv 0 r = 0 := by
  rw [ceilDiv, Nat.div_eq_zero_iff]
  omega

/-- No bits are squeezed without an extraction, whatever the rate (R137). -/
theorem exec_squeeze_of_outsz_zero (houtsz : s.cfg.outsz = 0#32) :
    exec .squeeze s = .next { s with result := some (.bits []) } := by
  have hextractions : extractions s = 0 := by
    rw [extractions, houtsz]
    exact ceilDiv_zero _
  have hsqueeze : squeeze s = .ok ([], s) := by
    unfold squeeze
    rw [hextractions]
  change execSqueeze s = _
  rw [execSqueeze, if_neg fun h => h.2 houtsz, hsqueeze]
  rfl

end

/-- Settles O20: the three loops check for the rate before they run, and `OUTSZ = 0` needs no loop. -/
theorem zeroRateStopsTheBlockLoops : Obligations.ZeroRateStopsTheBlockLoops := by
  unfold Obligations.ZeroRateStopsTheBlockLoops
  intro s hzero
  have hrate : s.cfg.rate = 0#11 := BitVec.eq_of_toNat_eq hzero
  refine ⟨fun hphase => ?accepting, fun hne => ?squeeze, fun hz => ?noBits⟩
  case accepting =>
    have hacc := (accepting_iff _).mpr hphase
    exact ⟨fun d => exec_absorb_of_rate_zero hrate d hacc,
      fun d k v => exec_finalize_of_rate_zero hrate d k v hacc⟩
  case squeeze => exact exec_squeeze_of_rate_zero hrate fun h => hne (by rw [h]; rfl)
  case noBits => exact exec_squeeze_of_outsz_zero (BitVec.eq_of_toNat_eq hz)

end Sys2Proof.Machine

/-! The hardware reset (70_reset_and_hazards.md R180, R182). -/

namespace Sys2Proof.Machine

/-- A step with the reset input asserted: only what is presented depends on when it was asserted (R180). -/
theorem exists_step_of_reset_input {s : State} (hpin : s.resetPin ≠ .low) :
    ∃ t, step s = .next t ∧ t.phase = .unconfigured ∧ t.responses = s.responses ∧ t.resetPin = .low ∧
      (s.resetPin = .betweenCommands → t.port = s.port ∧ t.latch = s.latch) ∧
      (s.resetPin = .duringCommand → t.latch = none ∧
        (s.latch = none → t.port = s.port.tail) ∧ (s.latch ≠ none → t.port = s.port)) := by
  obtain ⟨hbetween, hduring, -⟩ := stepRunsThePresentedInstruction
  cases h : s.resetPin with
  | low => exact absurd h hpin
  | betweenCommands => exact ⟨_, hbetween s h, rfl, rfl, rfl, fun _ => ⟨rfl, rfl⟩, nofun⟩
  | duringCommand =>
    have hport : (hardwareReset (abandonCommand s)).port = _ := abandonCommand_port s
    exact ⟨_, hduring s h, rfl, abandonCommand_responses s, rfl, nofun, fun _ =>
      ⟨abandonCommand_latch s, fun hlatch => by rw [hport, if_pos hlatch],
        fun hlatch => by rw [hport, if_neg hlatch]⟩⟩

/-- Settles O55: `Unconfigured` refuses ABSORB and FINALIZE, and a legal INIT completes in every state. -/
theorem hardwareResetUnconfigures : Obligations.HardwareResetUnconfigures := by
  unfold Obligations.HardwareResetUnconfigures
  intro s hpin
  obtain ⟨t, ht, hphase, hresponses, hlow, hbetween, hduring⟩ := exists_step_of_reset_input hpin
  have hacc : t.phase.accepting = false := (not_accepting_iff _).mpr (.inl hphase)
  refine ⟨t, ht, hphase, hresponses, hlow, hbetween, hduring,
    fun d => exec_absorb_of_not_accepting d hacc, fun d k v => exec_finalize_of_not_accepting d k v hacc,
    fun r c n hlegal => ?_⟩
  obtain ⟨cfg, -, -, -, -, hinit⟩ := exec_init_of_legal n hlegal
  exact ⟨_, hinit t, rfl⟩

end Sys2Proof.Machine
